-- ==== Sys2Proof/Word.lean ====
section
/-! DEFINITION. The unit of storage of the core: an 8-bit byte, or the marker EMPTY (spec/10_state.md rule R11). -/

namespace Sys2Proof

/-- An 8-bit unsigned value, 0 to 255 (rule R7). -/
abbrev Byte := BitVec 8

/-- One storage location of the memory or of the register file (rule R11): EMPTY, the out-of-band "uninitialized"
marker, which equals no byte and takes part in no arithmetic, or a byte. -/
inductive Cell where
  | empty
  | byte (b : Byte)
  deriving DecidableEq, Repr

end Sys2Proof
end

