-- ==== Sys2Proof/Config.lean ====
section
/-! DEFINITION. The parameters of the core (spec/00_scope.md Table R4). All of them are fixed by the spec: none is left
open, and there is no free value. -/

namespace Sys2Proof.Config

/-- MEM_SIZE: addresses are 0 to 255 (rules R4, R12). -/
abbrev memSize : Nat := 256

/-- NREG: register indices are 0 to 7 (rules R4, R13). -/
abbrev numRegs : Nat := 8

/-- The address of the first fetch (rules R27, R142). -/
def resetPc : Nat := 0

/-- What a cell that nothing has written holds: EMPTY, in memory and in the register file (rules R27, R33). -/
def unwritten : Cell := .empty

/-- The longest instruction, in cells: one opcode cell and two operand cells (rule R51). -/
def maxInstrCells : Nat := 3

/-- No run has more steps than this (rule R81). -/
def maxRunSteps : Nat := 129

end Sys2Proof.Config
end

