-- ==== Sys2Proof/Syntax.lean ====
section
/-! DEFINITION. The instruction set: the four rows of spec/opcode_table.json (spec/30_encoding.md Table R55). -/

namespace Sys2Proof

/-- A decoded instruction. Each operand is the WHOLE operand cell as it was fetched: any byte, or EMPTY. A register
index outside 0 to 7 is not rejected at decode but raises when the handler uses it (rule R52), and LDI copies an EMPTY
immediate (rule R91), so both are instructions. -/
inductive Instr where
  /-- `LDI ra, imm`, format F2-RI (rule R90). -/
  | ldi (ra imm : Cell)
  /-- `PRN ra`, format F1 (rule R95). -/
  | prn (ra : Cell)
  /-- `MUL ra, rb`, format F2-RR (rule R102). -/
  | mul (ra rb : Cell)
  /-- `HLT`, format F0 (rule R110). -/
  | hlt
  deriving DecidableEq, Repr

end Sys2Proof
end

