-- ==== Sys2Proof/WellFormed.lean ====
section
/-! DEFINITION. Which instructions name only registers that exist (spec/30_encoding.md rule R52, spec/70_reset_and_hazards.md rule R145 (d)).
An ill-formed instruction still decodes and runs: its handler raises OutOfBoundsAddress (rule R39). DESIGN CHOICE, safe:
log entry 9. -/

namespace Sys2Proof

/-- A register-index operand is valid when it is a byte 0 to 7; all eight bits count (rules R39, R52). -/
def Cell.validIndex : Cell → Bool
  | .empty => false
  | .byte b => decide (b.toNat < Config.numRegs)

/-- Every register-index operand is valid. An immediate may be any cell (rules R53, R91). -/
def Instr.wellFormed : Instr → Bool
  | .ldi ra _ => ra.validIndex
  | .prn ra => ra.validIndex
  | .mul ra rb => ra.validIndex && rb.validIndex
  | .hlt => true

/-- The form later statements use. -/
abbrev WellFormed (i : Instr) : Prop := i.wellFormed = true

end Sys2Proof
end

