-- ==== Sys2Proof/Decode.lean ====
section
/-! DEFINITION. The opcode table, the decoder and the encoder (spec/30_encoding.md). -/

namespace Sys2Proof

/-- The rows of the opcode table (Table R55), by name. -/
inductive Opcode where
  | ldi
  | prn
  | mul
  | hlt
  deriving DecidableEq, Repr

/-- The table's bit pattern column, bit 7 first (Table R55). -/
def Opcode.pattern : Opcode → Byte
  | .ldi => 0b10000010#8
  | .prn => 0b01000111#8
  | .mul => 0b10100010#8
  | .hlt => 0b00000001#8

/-- The table's operand count column, NOPS (Table R55). It is a column of the table: bits 7:6 of the opcode are not
decoded (rule R61). -/
def Opcode.nops : Opcode → Nat
  | .ldi => 2
  | .prn => 1
  | .mul => 2
  | .hlt => 0

/-- The dispatch table's rows, a constant of the core (rule R21). -/
def dispatchTable : List Opcode := [.ldi, .prn, .mul, .hlt]

/-- Rule R56: the whole fetched cell is the key. EMPTY is not a key (rule R58). -/
def dispatch : Cell → Option Opcode
  | .empty => none
  | .byte b => dispatchTable.find? fun op => op.pattern == b

/-- The row an instruction was decoded from. -/
def Instr.opcode : Instr → Opcode
  | .ldi _ _ => .ldi
  | .prn _ => .prn
  | .mul _ _ => .mul
  | .hlt => .hlt

/-- Rule R60: one opcode cell and NOPS operand cells. -/
def Instr.length (i : Instr) : Nat := 1 + i.opcode.nops

/-- Decoding over any source of cells: `read k` gives the instruction's cell at offset k, or says why it cannot.
The opcode cell is read and looked up first; then the row's operand cells, in ascending order, and no other cell
(rules R50, R56, R73, R74). -/
def decodeWith {ε : Type} (read : Nat → Except ε Cell) (unknown : Cell → ε) : Except ε Instr := do
  let ir ← read 0
  match dispatch ir with
  | none => .error (unknown ir)
  | some .ldi => do
    let ra ← read 1
    let imm ← read 2
    .ok (.ldi ra imm)
  | some .prn => do
    let ra ← read 1
    .ok (.prn ra)
  | some .mul => do
    let ra ← read 1
    let rb ← read 2
    .ok (.mul ra rb)
  | some .hlt => .ok .hlt

/-- Why a list of cells is no instruction. -/
inductive DecodeError where
  /-- The opcode cell is EMPTY or none of the four patterns (rules R57, R58). -/
  | unknownOpcode (opcode : Cell)
  /-- The list ends before the instruction's cell at this offset. -/
  | missingCell (offset : Nat)
  deriving DecidableEq, Repr

/-- The cell of a list at an offset, or the name of what is missing. -/
def cellAt (cells : List Cell) (k : Nat) : Except DecodeError Cell :=
  match cells[k]? with
  | some c => .ok c
  | none => .error (.missingCell k)

/-- The decoder on a list of cells: the instruction at its head and the cells after it. -/
def decode (cells : List Cell) : Except DecodeError (Instr × List Cell) :=
  match decodeWith (cellAt cells) .unknownOpcode with
  | .ok i => .ok (i, cells.drop i.length)
  | .error e => .error e

/-- The encoder: the opcode's cell, then the operand cells in the order of the assembly notation (rules R51, R62). -/
def encode : Instr → List Cell
  | .ldi ra imm => [.byte Opcode.ldi.pattern, ra, imm]
  | .prn ra => [.byte Opcode.prn.pattern, ra]
  | .mul ra rb => [.byte Opcode.mul.pattern, ra, rb]
  | .hlt => [.byte Opcode.hlt.pattern]

/-- The bytes of an instruction given as a number in the numbering of spec/opcode_table.json, first byte lowest; the
bits above `nbits` are 0, up to the longest instruction. -/
def tableBytes (nbits w : Nat) : List Byte :=
  (List.range Config.maxInstrCells).map fun k => BitVec.ofNat 8 ((w % 2 ^ nbits) >>> (8 * k))

/-- The instruction the decoder reads from such a number. -/
def decodeTableWord (nbits w : Nat) : Option Instr :=
  match decode ((tableBytes nbits w).map .byte) with
  | .ok (i, _) => some i
  | .error _ => none

end Sys2Proof
end

