-- ==== Sys2Proof/Machine/State.lean ====
section
/-! DEFINITION. The architectural state of one machine instance (spec/10_state.md rule R10), its reset value, the errors
the core records, and the reasons a step gives no next state. -/

namespace Sys2Proof.Machine

/-- The memory `M` (rule R12): the bytes that have been written, by address, in strictly rising order. An address
that is not listed reads as `Config.unwritten`, EMPTY (rules R27, R33). No operation writes EMPTY (rule R31), so a listed
cell is always a byte and every memory has one form. DESIGN CHOICE, safe: log entry 8. -/
abbrev Memory := List Host.Cell

/-- Addresses rise strictly from `lo` on and lie in the address space. -/
def Memory.wfFrom : Nat → Memory → Bool
  | _, [] => true
  | lo, (a, _) :: rest => decide (lo ≤ a) && decide (a < Config.memSize) && Memory.wfFrom (a + 1) rest

/-- The canonical form: addresses strictly rising, all of them 0 to 255. -/
def Memory.wf (m : Memory) : Bool := Memory.wfFrom 0 m

/-- A register index, 0 to 7 (rule R13). -/
abbrev RegIndex := Fin Config.numRegs

/-- The run state `RS` (rule R18). -/
inductive RunState where
  /-- The initial state, and the only one from which a step is defined (rule R70). -/
  | running
  /-- Reached by HLT, the clean end (rule R111). -/
  | halted
  /-- Reached by any error (rule R126). -/
  | errored
  deriving DecidableEq, Repr

/-- The ALU's operation selector: an enumeration without an encoding (rule R100, decision D20). -/
inductive AluOp where
  | mul
  /-- Named by the spec and not implemented (rule R104). -/
  | add
  /-- Any other selector (decision D20); the number only tells them apart. DESIGN CHOICE, safe: log entry 3. -/
  | other (selector : Nat)
  deriving DecidableEq, Repr

/-- What lay out of range (Table R120, the payload of OutOfBoundsAddress). -/
inductive BadIndex where
  /-- space = MEM: an address above 255. -/
  | mem (index : Nat)
  /-- space = REG: an operand cell that is EMPTY or above 7. -/
  | reg (index : Cell)
  deriving DecidableEq, Repr

/-- The errors a step can raise, with what each records in ERR (Table R120). -/
inductive Error where
  /-- The fetched cell has no row in the dispatch table; `pc` is the address it was fetched from (rule R121). -/
  | unknownOpcode (opcode : Cell) (pc : Nat)
  /-- A memory address above 255 or a register index that is not 0 to 7 (rule R122). -/
  | outOfBoundsAddress (index : BadIndex)
  /-- The ALU was given an operation other than MUL (rule R123). -/
  | unsupportedALUOperation (op : AluOp)
  /-- A source register of PRN or MUL holds EMPTY (rule R124). -/
  | uninitializedOperand (reg : RegIndex)
  deriving DecidableEq, Repr

/-- The complete architectural state: the six items of rule R10. -/
structure State where
  /-- `M`, the memory (rule R12). -/
  mem : Memory
  /-- `x`, the register file r0 to r7 (rule R13). -/
  regs : Vector Cell Config.numRegs
  /-- `pc`, a natural number that never wraps (rules R15, R17). The type admits values above 256, which no run reaches.
  DESIGN CHOICE, safe: log entry 4. -/
  pc : Nat
  /-- `RS`, the run state (rule R18). -/
  rs : RunState
  /-- `ERR`, the error record (rule R19). -/
  err : Option Error
  /-- `OUT`, the values PRN has emitted, oldest first (rule R20). -/
  out : List Byte
  deriving DecidableEq, Repr

/-- The reset state of Table R27 for the empty image: every cell and register EMPTY, `pc` = 0, RUNNING, no error, no
output. `load` (Machine/Load.lean) gives the reset state of any image. -/
def State.reset : State where
  mem := []
  regs := Vector.replicate Config.numRegs Config.unwritten
  pc := Config.resetPc
  rs := .running
  err := none
  out := []

/-- Why a step has no next state: the spec defines no step from a terminal state (rule R82, U12). These are the model's
only faults; every error of the core is a NEXT state with RS = ERRORED (rule R126). DESIGN CHOICE, safe: log entry 1. -/
inductive Fault where
  /-- Raised by `settle` (Machine/Ops.lean) in any state with RS = HALTED. Safe: the spec gives no step there. -/
  | haltedNoStep
  /-- Raised by `settle` (Machine/Ops.lean) in any state with RS = ERRORED. Safe: the spec gives no step there. -/
  | erroredNoStep
  deriving DecidableEq, Repr

/-- Why a step is given no meaning. -/
inductive Refusal where
  /-- Raised by an arm of `exec` for an instruction without a meaning; no arm does so now. Safe. -/
  | notModelled (mnemonic : String)
  deriving DecidableEq, Repr

end Sys2Proof.Machine
end

