-- ==== Sys2Proof/Machine/Ops.lean ====
section
/-! DEFINITION. The named operations over memory, registers and the control state: the access contracts of
spec/20_memory.md, error entry (spec/60_exceptions.md rule R126) and the advance (spec/40_execution_loop.md rule R76). -/

namespace Sys2Proof.Machine

/-- `M[a]`, without the range check: an unlisted address reads as EMPTY (rules R12, R33). -/
def memGet : Memory → Nat → Cell
  | [], _ => Config.unwritten
  | (b, v) :: rest, a => if a = b then .byte v else memGet rest a

/-- `M[a] <- v`, without the range check, keeping the addresses in rising order. -/
def memPut : Memory → Nat → Byte → Memory
  | [], a, v => [(a, v)]
  | (b, w) :: rest, a, v =>
    if a < b then (a, v) :: (b, w) :: rest
    else if a = b then (a, v) :: rest
    else (b, w) :: memPut rest a v

/-- `MemRead(a, 1)` (rules R30, R32): an address above 255 is not wrapped but raises. -/
def memRead (m : Memory) (a : Nat) : Except Error Cell :=
  if a < Config.memSize then .ok (memGet m a) else .error (.outOfBoundsAddress (.mem a))

/-- `MemWrite(a, 1, v)` (rules R31, R32). Only Load performs it (rule R38). -/
def memWrite (m : Memory) (a : Nat) (v : Byte) : Except Error Memory :=
  if a < Config.memSize then .ok (memPut m a v) else .error (.outOfBoundsAddress (.mem a))

/-- Store bytes at ascending addresses from `a` on; the first address above 255 raises (rules R141, R143). -/
def memWriteBytes (m : Memory) (a : Nat) : List Byte → Except Error Memory
  | [] => .ok m
  | b :: bs => do
    let m' ← memWrite m a b
    memWriteBytes m' (a + 1) bs

/-- Store those of the bytes that fall on an address that exists. No instruction does this: it is how
`State.withFetchWord` lays an instruction where the next fetch reads it. -/
def memPlaceBytes (m : Memory) (a : Nat) : List Byte → Memory
  | [] => m
  | b :: bs =>
    match memWrite m a b with
    | .ok m' => memPlaceBytes m' (a + 1) bs
    | .error _ => m

/-- `x[r]` for a checked index (rule R39). -/
def regRead (s : State) (r : RegIndex) : Cell := s.regs[r]

/-- `x[r] <- v` for a checked index: that one cell is replaced (rule R39). -/
def regWrite (r : RegIndex) (v : Cell) (s : State) : State := { s with regs := s.regs.set r v }

/-- Append one value to OUT; always succeeds (rules R20, R98). -/
def emit (v : Byte) (s : State) : State := { s with out := s.out ++ [v] }

/-- The advance of a completed instruction: its length in cells, never wrapping (rules R16, R17, R76). -/
def advance (op : Opcode) (s : State) : State := { s with pc := s.pc + 1 + op.nops }

/-- HLT's effect: RS <- HALTED, `pc` kept (rule R110). -/
def halt (s : State) : State := { s with rs := .halted }

/-- Error entry, `raise E(info)` (rule R126): RS <- ERRORED and ERR <- E(info). It is applied to the state BEFORE the
step, so every assignment of the step is void; nothing else is saved and control goes nowhere. There is no return from
an error (rule R129). -/
def raise (e : Error) (s : State) : State := { s with rs := .errored, err := some e }

/-- How a step from `s` ends. It is defined only while RS = RUNNING (rules R70, R82); then it is the completed step's
state, or `s` with the error taken. Every meaning and the fetch's error end here, so RS is checked in one place.
DESIGN CHOICE, safe: log entry 7. -/
def settle (s : State) (r : Except Error State) : Host.Outcome State Fault Refusal :=
  match s.rs with
  | .halted => .fault .haltedNoStep
  | .errored => .fault .erroredNoStep
  | .running =>
    match r with
    | .ok t => .next t
    | .error e => .next (raise e s)

end Sys2Proof.Machine
end

