-- ==== Sys2Proof/Machine/Operands.lean ====
section
/-! DEFINITION. The operand forms: register index, source register, immediate (spec/30_encoding.md rules R52 to R54,
spec/20_memory.md rule R39). -/

namespace Sys2Proof.Machine

/-- `RegCheck(r)` (rule R39): the operand cell as a register index. All eight bits are compared, none is masked. -/
def regCheck : Cell → Except Error RegIndex
  | .empty => .error (.outOfBoundsAddress (.reg .empty))
  | .byte b =>
    if h : b.toNat < Config.numRegs then .ok ⟨b.toNat, h⟩
    else .error (.outOfBoundsAddress (.reg (.byte b)))

/-- The byte in a source register; EMPTY there raises UninitializedOperand (rules R97, R105, R124). -/
def sourceByte (s : State) (r : RegIndex) : Except Error Byte :=
  match regRead s r with
  | .byte v => .ok v
  | .empty => .error (.uninitializedOperand r)

/-- The immediate operand: the cell as it was fetched, EMPTY included, with no extension or scaling (rules R53, R91). -/
def immediate (c : Cell) : Cell := c

end Sys2Proof.Machine
end

