-- ==== Sys2Proof/Machine/Alu.lean ====
section
/-! DEFINITION. The ALU block (spec/43_alu_mul.md rules R100, R101, R103). It sets no flags: the core has none (rule
R22). -/

namespace Sys2Proof.Machine

/-- The low 8 bits of the product of two unsigned bytes; the high 8 bits are discarded (rule R103). -/
def mulLow (a b : Byte) : Byte := BitVec.ofNat 8 (a.toNat * b.toNat)

/-- `ALU_apply(op, ra, rb)` (rule R100). The operation is checked first, then the indices in operand order, then the
sources for EMPTY in operand order; both are read before the write. -/
def aluApply (op : AluOp) (ra rb : Cell) (s : State) : Except Error State :=
  match op with
  | .mul => do
    let a ← regCheck ra
    let b ← regCheck rb
    let x ← sourceByte s a
    let y ← sourceByte s b
    .ok (regWrite a (.byte (mulLow x y)) s)
  | .add => .error (.unsupportedALUOperation .add)
  | .other k => .error (.unsupportedALUOperation (.other k))

end Sys2Proof.Machine
end

