-- ==== Sys2Proof/Machine/Arithmetic.lean ====
section
/-! DEFINITION. The arithmetic family: MUL (spec/43_alu_mul.md rule R102). -/

namespace Sys2Proof.Machine

/-- `MUL ra, rb` (rules R102, R105): the ALU's multiply, then the advance by 3. -/
def execMul (ra rb : Cell) (s : State) : Host.Outcome State Fault Refusal :=
  settle s do
    let t ← aluApply .mul ra rb s
    .ok (advance .mul t)

end Sys2Proof.Machine
end

