-- ==== Sys2Proof/Machine/Control.lean ====
section
/-! DEFINITION. The control family: HLT (spec/44_hlt.md). -/

namespace Sys2Proof.Machine

/-- `HLT` (rules R110, R111): RS <- HALTED; no check, no advance. -/
def execHlt (s : State) : Host.Outcome State Fault Refusal :=
  settle s (.ok (halt s))

end Sys2Proof.Machine
end

