-- ==== Sys2Proof/Machine/DataTransfer.lean ====
section
/-! DEFINITION. The data-transfer family: LDI (spec/41_ldi.md). -/

namespace Sys2Proof.Machine

/-- `LDI ra, imm` (rules R90, R91): check the index, copy the immediate cell, advance by 3. -/
def execLdi (ra imm : Cell) (s : State) : Host.Outcome State Fault Refusal :=
  settle s do
    let r ← regCheck ra
    .ok (advance .ldi (regWrite r (immediate imm) s))

end Sys2Proof.Machine
end

