-- ==== Sys2Proof/Machine/Output.lean ====
section
/-! DEFINITION. The output family: PRN (spec/42_prn.md), and how the host shows what it emits (rule R96). -/

namespace Sys2Proof.Machine

/-- `PRN ra` (rules R95, R97, R98): check the index, raise on an EMPTY register, else emit its byte and advance by 2. -/
def execPrn (ra : Cell) (s : State) : Host.Outcome State Fault Refusal :=
  settle s do
    let r ← regCheck ra
    let v ← sourceByte s r
    .ok (advance .prn (emit v s))

/-- The characters of the line the host writes for one emitted value (rule R96): its decimal numeral, no sign, no
leading zeros, no padding. The line end itself is the host's (decision D25). DESIGN CHOICE, safe: log entry 6. -/
def hostLine (v : Byte) : List Char := Nat.toDigits 10 v.toNat

/-- The lines for the whole of OUT, in order (rule R96). -/
def hostLines (s : State) : List String := s.out.map fun v => String.ofList (hostLine v)

end Sys2Proof.Machine
end

