-- ==== Sys2Proof/Machine/Dispatch.lean ====
section
/-! DEFINITION. The dispatcher (spec/40_execution_loop.md rule R75): the opcode alone selects the handler. -/

namespace Sys2Proof.Machine

def exec (i : Instr) (s : State) : Host.Outcome State Fault Refusal :=
  match i with
  | .ldi ra imm => Sys2Proof.Machine.execLdi ra imm s
  | .prn ra => Sys2Proof.Machine.execPrn ra s
  | .mul ra rb => Sys2Proof.Machine.execMul ra rb s
  | .hlt => Sys2Proof.Machine.execHlt s

end Sys2Proof.Machine
end

