-- ==== Sys2Proof/Machine/Fetch.lean ====
section
/-! DEFINITION. Fetch, decode and operand fetch (spec/40_execution_loop.md rules R72 to R74). -/

namespace Sys2Proof.Machine

/-- The instruction at `pc`, or the error its fetch raises: its cells are read with `MemRead` at `pc`, `pc`+1 and
`pc`+2, in that order and no further than the opcode's operand count. It changes no state. -/
def fetch (s : State) : Except Error Instr :=
  decodeWith (fun k => memRead s.mem (s.pc + k)) fun ir => .unknownOpcode ir s.pc

end Sys2Proof.Machine
end

