-- ==== Sys2Proof/Machine/Step.lean ====
section
/-! DEFINITION. One step of the execution loop (spec/40_execution_loop.md rule R71). -/

namespace Sys2Proof.Machine

/-- Fetch and decode, then the handler; an error of the fetch is taken like any other. `settle`, in both branches, gives
no step from a terminal state (rules R70, R82). -/
def step (s : State) : Host.Outcome State Fault Refusal :=
  match fetch s with
  | .ok i => exec i s
  | .error e => settle s (.error e)

/-- `s` with an instruction, numbered as spec/opcode_table.json numbers it, stored at `pc`, where the next step fetches.
Nothing but memory changes. DESIGN CHOICE, safe: log entry 2. -/
def State.withFetchWord (s : State) (nbits w : Nat) : State :=
  { s with mem := memPlaceBytes s.mem s.pc (tableBytes nbits w) }

end Sys2Proof.Machine
end

