-- ==== Sys2Proof/Machine/Load.lean ====
section
/-! DEFINITION. Load, the construction of an instance (spec/70_reset_and_hazards.md rules R140 to R144). -/

namespace Sys2Proof.Machine

/-- `Load(b[0..n-1])` (rule R141): the image's bytes are written from address 0 up, everything else is at its reset
value. An image of more than 256 bytes raises OutOfBoundsAddress(MEM, 256) and no instance exists (rules R143, R144). -/
def load (image : List Byte) : Except Error State := do
  let m ← memWriteBytes State.reset.mem 0 image
  .ok { State.reset with mem := m }

end Sys2Proof.Machine
end

