-- ==== Sys2Proof/Machine/Run.lean ====
section
/-! DEFINITION. The run (spec/40_execution_loop.md rule R79) and what it reports (spec/00_scope.md rule R5). -/

namespace Sys2Proof.Machine

/-- "Repeat while RUNNING", at most `fuel` steps. A step from RUNNING always has a next state. -/
def runFor : Nat → State → State
  | 0, s => s
  | fuel + 1, s =>
    match step s with
    | .next t => runFor fuel t
    | .fault _ => s
    | .refused _ => s

/-- Run: Step until RS is terminal. The bound of rule R81 loses no behaviour. DEDUCED, safe: log entry 5. -/
def run (s : State) : State := runFor Config.maxRunSteps s

/-- The outcome of a run, "`Halted`, `Errored(reason)`" (rules R5, R111). -/
inductive RunOutcome where
  | halted
  | errored (reason : Error)
  deriving DecidableEq, Repr

/-- The Status interface (rule R5): the outcome once the run has ended, read from RS and ERR. -/
def State.outcome (s : State) : Option RunOutcome :=
  match s.rs, s.err with
  | .halted, _ => some .halted
  | .errored, some e => some (.errored e)
  | .errored, none => none
  | .running, _ => none

/-- Execute a list of instructions one after the other, without fetching them. -/
def execAll : List Instr → State → Host.Outcome State Fault Refusal
  | [], s => .next s
  | i :: is, s =>
    match exec i s with
    | .next t => execAll is t
    | .fault f => .fault f
    | .refused r => .refused r

/-- The instructions that COMPLETE in the first `k` steps from `s`, in order (rule R80). It ends at the first errored
step and at the end of the run. -/
def completed : Nat → State → List Instr
  | 0, _ => []
  | k + 1, s =>
    match fetch s, step s with
    | .ok i, .next t => if t.rs = .errored then [] else i :: completed k t
    | _, _ => []

end Sys2Proof.Machine
end

