-- ==== Sys2Proof/Safety.lean ====
section
/-! DEFINITION. What counts as a consistent state (spec/10_state.md rule R28), a clean end (rule R82), and a program that
meets the boot requirements (spec/70_reset_and_hazards.md rule R145). -/

namespace Sys2Proof.Machine

/-- Rule R28 (a). -/
abbrev State.PcInRange (s : State) : Prop := s.pc ≤ Config.memSize

/-- Rule R28 (d): ERR holds an error exactly when RS = ERRORED. -/
abbrev State.StatusConsistent (s : State) : Prop := s.err.isSome = true ↔ s.rs = .errored

/-- Rule R28 (f): a halted machine stands at a HLT cell. -/
abbrev State.HaltedAtHlt (s : State) : Prop := s.rs = .halted → memGet s.mem s.pc = .byte 0x01#8

/-- The invariant of rule R28 that one state can show, with the canonical form of memory. -/
structure State.Inv (s : State) : Prop where
  memCanonical : s.mem.wf = true
  pcInRange : s.PcInRange
  statusConsistent : s.StatusConsistent
  haltedAtHlt : s.HaltedAtHlt

/-- The clean end of a run: HALTED, never ERRORED (rule R82). -/
abbrev State.CleanEnd (s : State) : Prop := s.rs = .halted ∧ s.err = none

/-- The memory of `s` holds these cells from address `a` up, all of them inside the address space. -/
def State.holdsAt (s : State) (a : Nat) : List Cell → Prop
  | [] => True
  | c :: cs => a < Config.memSize ∧ memGet s.mem a = c ∧ s.holdsAt (a + 1) cs

/-- Boot requirements (b), (c) and (d) of rule R145 for a straight-line program, given the registers already written:
every index is 0 to 7, PRN and MUL read only written registers, LDI's immediate lies in the image, and HLT comes
last. -/
def bootReady : List RegIndex → List Instr → Bool
  | _, [] => false
  | written, .ldi ra imm :: is =>
    match regCheck ra, imm with
    | .ok r, .byte _ => bootReady (r :: written) is
    | _, _ => false
  | written, .prn ra :: is =>
    match regCheck ra with
    | .ok r => written.contains r && bootReady written is
    | .error _ => false
  | written, .mul ra rb :: is =>
    match regCheck ra, regCheck rb with
    | .ok a, .ok b => written.contains a && written.contains b && bootReady written is
    | _, _ => false
  | _, .hlt :: is => is.isEmpty

end Sys2Proof.Machine
end

