-- ==== Sys2Proof/Certificates/Slice0/Obligations.lean ====
section
/-! DEFINITION. The statements for the provers. Each docstring names the rule of spec/ it formalises; where a clause rests
on a decision the spec marks as its own (D<n> of spec/92_eei_decisions.md), the docstring names it. -/

open Sys2Proof Sys2Proof.Machine

/-! ### Encoding and decoding -/

/-- spec/30_encoding.md: the decoder reads an instruction from a list of cells exactly when the list begins with that
instruction's encoding, and leaves exactly the cells after it. Every operand is any cell, EMPTY included. -/
def Obligations.DecodeAndEncodeAgree : Prop :=
  ∀ (cells : List Cell) (i : Instr) (rest : List Cell),
    decode cells = .ok (i, rest) ↔ cells = encode i ++ rest

/-- Rule R56. The key is the whole cell; the four rows and their operand counts; the operand cells play no part in the
selection; no match is an unknown opcode. -/
def Obligations.OpcodeCellSelectsTheRow : Prop :=
  (∀ (c : Cell) (op : Opcode), dispatch c = some op ↔
    (c = .byte 0x82#8 ∧ op = .ldi) ∨ (c = .byte 0x47#8 ∧ op = .prn) ∨
    (c = .byte 0xA2#8 ∧ op = .mul) ∨ (c = .byte 0x01#8 ∧ op = .hlt)) ∧
  (Opcode.ldi.nops = 2 ∧ Opcode.prn.nops = 1 ∧ Opcode.mul.nops = 2 ∧ Opcode.hlt.nops = 0) ∧
  (∀ (c : Cell) (rest tail : List Cell) (i : Instr),
    decode (c :: rest) = .ok (i, tail) → dispatch c = some i.opcode) ∧
  (∀ (c : Cell) (rest : List Cell), dispatch c = none → decode (c :: rest) = .error (.unknownOpcode c))

/-- Rule R60. The length, known from the opcode cell alone; an unknown opcode has none. -/
def Obligations.LengthComesFromTheOpcodeAlone : Prop :=
  (∀ (c : Cell) (rest tail : List Cell) (i : Instr), decode (c :: rest) = .ok (i, tail) →
    (c = .byte 0x82#8 ∧ i.length = 3 ∧ rest.length = tail.length + 2) ∨
    (c = .byte 0xA2#8 ∧ i.length = 3 ∧ rest.length = tail.length + 2) ∨
    (c = .byte 0x47#8 ∧ i.length = 2 ∧ rest.length = tail.length + 1) ∨
    (c = .byte 0x01#8 ∧ i.length = 1 ∧ rest = tail)) ∧
  (∀ c : Cell, c ≠ .byte 0x82#8 → c ≠ .byte 0xA2#8 → c ≠ .byte 0x47#8 → c ≠ .byte 0x01#8 →
    ∀ rest : List Cell, decode (c :: rest) = .error (.unknownOpcode c))

/-- spec/opcode_table.json: an instruction as one number, bit 0 the least significant bit of the first cell. -/
def Obligations.TableNumbersDecode : Prop :=
  ∀ a b : Byte,
    decodeTableWord 24 (0x82 + 256 * a.toNat + 65536 * b.toNat) = some (.ldi (.byte a) (.byte b)) ∧
    decodeTableWord 24 (0xA2 + 256 * a.toNat + 65536 * b.toNat) = some (.mul (.byte a) (.byte b)) ∧
    decodeTableWord 16 (0x47 + 256 * a.toNat) = some (.prn (.byte a)) ∧
    decodeTableWord 8 0x01 = some .hlt

/-- spec/95_test_vectors.md S1, S2, S3, S4: words written out from the encodings decode to what they stand for. -/
def Obligations.WordsWrittenFromTheSpecDecode : Prop :=
  decode [.byte 0b10000010#8, .byte 0b00000000#8, .byte 0b00101010#8] = .ok (.ldi (.byte 0#8) (.byte 42#8), []) ∧
  decode [.byte 0b01000111#8, .byte 0b00000000#8] = .ok (.prn (.byte 0#8), []) ∧
  decode [.byte 0b10100010#8, .byte 0b00000000#8, .byte 0b00000001#8] = .ok (.mul (.byte 0#8) (.byte 1#8), []) ∧
  decode [.byte 0b00000001#8, .byte 0b11111111#8] = .ok (.hlt, [.byte 0b11111111#8]) ∧
  decode [.byte 0b11111111#8] = .error (.unknownOpcode (.byte 0b11111111#8))

/-! ### The step -/

/-- Rule R70. A step exists exactly while RS = RUNNING; it is a function of the state alone. -/
def Obligations.StepIsDefinedExactlyWhileRunning : Prop :=
  ∀ s : State, (∃ t, step s = .next t) ↔ s.rs = .running

/-- spec/40_execution_loop.md: where the cells at `pc` decode to an instruction, the step is that instruction's
meaning. Nothing is added around it: the advance is the meaning's own. In a terminal state both stop alike, by the model's
own choice (log entries 1 and 7). -/
def Obligations.StepRunsTheDecodedInstruction : Prop :=
  ∀ (s : State) (cells rest : List Cell) (i : Instr),
    s.holdsAt s.pc cells → decode cells = .ok (i, rest) → step s = exec i s

/-- spec/40_execution_loop.md, fetch and operand fetch (the spec's decisions D10 and D11): a cell of the instruction
beyond address 255 raises with the first such address, and nothing else changes. -/
def Obligations.CellsBeyondMemoryRaise : Prop :=
  ∀ s : State, s.rs = .running →
    (255 < s.pc →
      step s = .next { s with rs := .errored, err := some (.outOfBoundsAddress (.mem s.pc)) }) ∧
    (s.pc = 255 → memGet s.mem 255 ∈ [Cell.byte 0x82#8, .byte 0x47#8, .byte 0xA2#8] →
      step s = .next { s with rs := .errored, err := some (.outOfBoundsAddress (.mem 256)) }) ∧
    (s.pc = 254 → memGet s.mem 254 ∈ [Cell.byte 0x82#8, .byte 0xA2#8] →
      step s = .next { s with rs := .errored, err := some (.outOfBoundsAddress (.mem 256)) })

/-- Rule R57. Every byte but the four is an unknown opcode, 252 of them, wherever it is fetched (at address 255 too, so no
operand is fetched) and whatever follows it. -/
def Obligations.UndefinedOpcodeRaises : Prop :=
  (∀ (s : State) (b : Byte), s.rs = .running → s.pc ≤ 255 → memGet s.mem s.pc = .byte b →
    b ∉ [0x01#8, 0x47#8, 0x82#8, 0xA2#8] →
    step s = .next { s with rs := .errored, err := some (.unknownOpcode (.byte b) s.pc) }) ∧
  ((List.range 256).filter fun n => BitVec.ofNat 8 n ∉ [0x01#8, 0x47#8, 0x82#8, 0xA2#8]).length = 252

/-- spec/30_encoding.md (the spec's decision D5): an EMPTY opcode cell is an unknown opcode. -/
def Obligations.EmptyOpcodeCellRaises : Prop :=
  ∀ s : State, s.rs = .running → s.pc ≤ 255 → memGet s.mem s.pc = .empty →
    step s = .next { s with rs := .errored, err := some (.unknownOpcode .empty s.pc) }

/-- spec/20_memory.md, the register-file contract (the spec's decision D6): an operand that is no index 0 to 7 raises in
every instruction that uses it as one, the first such operand is the one recorded, and nothing else changes. -/
def Obligations.InvalidRegisterIndexRaises : Prop :=
  ∀ (s : State) (c : Cell), s.rs = .running → (c = .empty ∨ ∃ b : Byte, c = .byte b ∧ 7 < b.toNat) →
    (∀ imm : Cell, exec (.ldi c imm) s =
      .next { s with rs := .errored, err := some (.outOfBoundsAddress (.reg c)) }) ∧
    exec (.prn c) s = .next { s with rs := .errored, err := some (.outOfBoundsAddress (.reg c)) } ∧
    (∀ rb : Cell, exec (.mul c rb) s =
      .next { s with rs := .errored, err := some (.outOfBoundsAddress (.reg c)) }) ∧
    (∀ a : Byte, a.toNat ≤ 7 → exec (.mul (.byte a) c) s =
      .next { s with rs := .errored, err := some (.outOfBoundsAddress (.reg c)) })

/-! ### LDI -/

/-- spec/41_ldi.md: LDI of a valid index completes for every immediate cell, EMPTY included. -/
def Obligations.LdiCompletes : Prop :=
  ∀ (s : State) (r : Byte) (imm : Cell) (hr : r.toNat < 8), s.rs = .running →
    exec (.ldi (.byte r) imm) s =
      .next { s with regs := s.regs.set r.toNat imm hr, pc := s.pc + 3 }

/-- Rule R90, as one step. The errors' payloads are the spec's decisions D6 and D11. The last clause: no other
instruction gives an EMPTY register a value. -/
def Obligations.LdiStep : Prop :=
  (∀ s : State, s.rs = .running → s.pc ≤ 255 → memGet s.mem s.pc = .byte 0x82#8 →
    step s =
      if s.pc = 255 then .next { s with rs := .errored, err := some (.outOfBoundsAddress (.mem (s.pc + 1))) }
      else if s.pc = 254 then .next { s with rs := .errored, err := some (.outOfBoundsAddress (.mem 256)) }
      else match memGet s.mem (s.pc + 1) with
        | .empty => .next { s with rs := .errored, err := some (.outOfBoundsAddress (.reg .empty)) }
        | .byte r =>
          if hr : r.toNat < 8 then
            .next { s with regs := s.regs.set r.toNat (memGet s.mem (s.pc + 2)) hr, pc := s.pc + 3 }
          else .next { s with rs := .errored, err := some (.outOfBoundsAddress (.reg (.byte r))) }) ∧
  (∀ (s t : State) (r : RegIndex), step s = .next t → s.regs[r] = .empty → t.regs[r] ≠ .empty →
    s.pc ≤ 255 ∧ memGet s.mem s.pc = .byte 0x82#8)

/-- spec/41_ldi.md (the spec's decision D7, with D8 and D9 for the later use): an EMPTY immediate makes the register
EMPTY, and every later use then raises UninitializedOperand of it: PRN of it, MUL with it as A, and MUL with it as B where
A is a register that holds a byte (A is checked before B). -/
def Obligations.LdiOfEmptyImmediateEmptiesTheRegister : Prop :=
  ∀ (s : State) (r : Byte) (hr : r.toNat < 8), s.rs = .running → ∃ t : State,
    exec (.ldi (.byte r) .empty) s = .next t ∧ t.regs[r.toNat] = .empty ∧ t.pc = s.pc + 3 ∧
    exec (.prn (.byte r)) t =
      .next { t with rs := .errored, err := some (.uninitializedOperand ⟨r.toNat, hr⟩) } ∧
    (∀ b : Byte, b.toNat < 8 → exec (.mul (.byte r) (.byte b)) t =
      .next { t with rs := .errored, err := some (.uninitializedOperand ⟨r.toNat, hr⟩) }) ∧
    ∀ (a x : Byte) (_ : a.toNat < 8), t.regs[a.toNat] = .byte x → exec (.mul (.byte a) (.byte r)) t =
      .next { t with rs := .errored, err := some (.uninitializedOperand ⟨r.toNat, hr⟩) }

/-- spec/41_ldi.md, round trip: LDI of a byte and then PRN of the same register, as two steps of the machine, append
exactly that byte. -/
def Obligations.LdiThenPrnEmitsTheImmediate : Prop :=
  ∀ (s : State) (r v : Byte), s.rs = .running → r.toNat < 8 →
    s.holdsAt s.pc [.byte 0x82#8, .byte r, .byte v, .byte 0x47#8, .byte r] →
    ∃ t : State, core.run 2 s = .next t ∧ t.out = s.out ++ [v] ∧ t.pc = s.pc + 5 ∧ t.rs = .running

/-! ### PRN -/

/-- Rule R98, and spec/42_prn.md: PRN of a register that holds a byte completes, whatever OUT holds already: the append
is part of the step, goes to the end and cannot fail. -/
def Obligations.PrnCompletes : Prop :=
  ∀ (s : State) (r v : Byte) (hr : r.toNat < 8), s.rs = .running → s.regs[r.toNat] = .byte v →
    exec (.prn (.byte r)) s = .next { s with out := s.out ++ [v], pc := s.pc + 2 }

/-- Rule R95, as one step. The errors are the spec's decisions D6, D9 and D11. -/
def Obligations.PrnStep : Prop :=
  ∀ s : State, s.rs = .running → s.pc ≤ 255 → memGet s.mem s.pc = .byte 0x47#8 →
    step s =
      if s.pc = 255 then .next { s with rs := .errored, err := some (.outOfBoundsAddress (.mem 256)) }
      else match memGet s.mem (s.pc + 1) with
        | .empty => .next { s with rs := .errored, err := some (.outOfBoundsAddress (.reg .empty)) }
        | .byte r =>
          if hr : r.toNat < 8 then
            match s.regs[r.toNat] with
            | .empty => .next { s with rs := .errored, err := some (.uninitializedOperand ⟨r.toNat, hr⟩) }
            | .byte v => .next { s with out := s.out ++ [v], pc := s.pc + 2 }
          else .next { s with rs := .errored, err := some (.outOfBoundsAddress (.reg (.byte r))) }

/-! ### The ALU and MUL -/

/-- spec/43_alu_mul.md (the spec's decision D4): the product of the two unsigned bytes, mod 256; the same byte results when
the sources are read as signed. -/
def Obligations.ProductIsTakenMod256 : Prop :=
  ∀ a b : Byte,
    (mulLow a b).toNat = a.toNat * b.toNat % 256 ∧
    mulLow a b = BitVec.ofInt 8 (a.toInt * b.toInt)

/-- Rule R101. MUL multiplies (the low 8 bits: the spec's decision D4); every other operation raises, whatever the operands
and the registers are. -/
def Obligations.AluSupportsOnlyMultiply : Prop :=
  (∀ (s : State) (a b x y : Byte) (ha : a.toNat < 8) (hb : b.toNat < 8),
    s.regs[a.toNat] = .byte x → s.regs[b.toNat] = .byte y →
    aluApply .mul (.byte a) (.byte b) s =
      .ok { s with regs := s.regs.set a.toNat (.byte (BitVec.ofNat 8 (x.toNat * y.toNat))) ha }) ∧
  (∀ (op : AluOp) (ra rb : Cell) (s : State), op ≠ .mul →
    aluApply op ra rb s = .error (.unsupportedALUOperation op))

/-- Rule R123. The ALU raises UnsupportedALUOperation for every other operation, and no step of the machine records it. -/
def Obligations.UnsupportedOperationIsNeverRecorded : Prop :=
  (∀ (op : AluOp) (ra rb : Cell) (s : State), op ≠ .mul →
    aluApply op ra rb s = .error (.unsupportedALUOperation op)) ∧
  (∀ (s t : State) (op : AluOp), step s = .next t → t.rs = .errored →
    t.err ≠ some (.unsupportedALUOperation op))

/-- spec/43_alu_mul.md (the product's low 8 bits: the spec's decision D4): MUL of two registers that hold bytes completes;
both may be the same register. -/
def Obligations.MulCompletes : Prop :=
  ∀ (s : State) (a b x y : Byte) (ha : a.toNat < 8) (hb : b.toNat < 8), s.rs = .running →
    s.regs[a.toNat] = .byte x → s.regs[b.toNat] = .byte y →
    exec (.mul (.byte a) (.byte b)) s =
      .next { s with
        regs := s.regs.set a.toNat (.byte (BitVec.ofNat 8 (x.toNat * y.toNat))) ha, pc := s.pc + 3 }

/-- Rule R102, as one step. The product's low 8 bits are the spec's decision D4, the errors D6, D8 and D11. -/
def Obligations.MulStep : Prop :=
  ∀ s : State, s.rs = .running → s.pc ≤ 255 → memGet s.mem s.pc = .byte 0xA2#8 →
    step s =
      if 254 ≤ s.pc then .next { s with rs := .errored, err := some (.outOfBoundsAddress (.mem 256)) }
      else match memGet s.mem (s.pc + 1), memGet s.mem (s.pc + 2) with
        | .empty, _ => .next { s with rs := .errored, err := some (.outOfBoundsAddress (.reg .empty)) }
        | .byte a, rb =>
          if ha : a.toNat < 8 then
            match rb with
            | .empty => .next { s with rs := .errored, err := some (.outOfBoundsAddress (.reg .empty)) }
            | .byte b =>
              if hb : b.toNat < 8 then
                match s.regs[a.toNat], s.regs[b.toNat] with
                | .empty, _ =>
                  .next { s with rs := .errored, err := some (.uninitializedOperand ⟨a.toNat, ha⟩) }
                | .byte _, .empty =>
                  .next { s with rs := .errored, err := some (.uninitializedOperand ⟨b.toNat, hb⟩) }
                | .byte x, .byte y =>
                  .next { s with
                    regs := s.regs.set a.toNat (.byte (BitVec.ofNat 8 (x.toNat * y.toNat % 256))) ha,
                    pc := s.pc + 3 }
              else .next { s with rs := .errored, err := some (.outOfBoundsAddress (.reg (.byte b))) }
          else .next { s with rs := .errored, err := some (.outOfBoundsAddress (.reg (.byte a))) }

/-- spec/43_alu_mul.md and spec/95_test_vectors.md S2: MUL is commutative in its value, not in its destination. -/
def Obligations.MulCommutesInValue : Prop :=
  ∀ (s t u : State) (a b : Byte) (ha : a.toNat < 8) (hb : b.toNat < 8), a ≠ b →
    exec (.mul (.byte a) (.byte b)) s = .next t → exec (.mul (.byte b) (.byte a)) s = .next u →
    t.rs = .running →
    u.rs = .running ∧ t.regs[a.toNat] = u.regs[b.toNat] ∧
      t.regs[b.toNat] = s.regs[b.toNat] ∧ u.regs[a.toNat] = s.regs[a.toNat]

/-! ### HLT -/

/-- spec/44_hlt.md: HLT completes in every RUNNING state, at any `pc`. -/
def Obligations.HltCompletes : Prop :=
  ∀ s : State, s.rs = .running → exec .hlt s = .next { s with rs := .halted }

/-- Rule R110, as one step: at every address that exists, 255 included, RS alone changes; the only error possible is the
fetch at 256; the program that is a lone HLT halts at once. -/
def Obligations.HltStep : Prop :=
  (∀ s : State, s.rs = .running → s.pc ≤ 255 → memGet s.mem s.pc = .byte 0x01#8 →
    step s = .next { s with rs := .halted }) ∧
  (∀ s : State, s.rs = .running → s.pc = 256 →
    step s = .next { s with rs := .errored, err := some (.outOfBoundsAddress (.mem 256)) }) ∧
  (∃ s : State, load [0x01#8] = .ok s ∧ step s = .next { s with rs := .halted } ∧ s.pc = 0 ∧ s.out = [] ∧
    ∀ r : RegIndex, s.regs[r] = .empty)

/-! ### Frames -/

/-- What LDI and MUL leave unchanged whenever they answer a next state: every register but the one their first operand
names, every cell of memory, OUT; RS and ERR too unless an error is taken, and then every register and `pc`. -/
def Obligations.LdiMulFrame : Prop :=
  ∀ (s t : State) (ra c : Cell), (exec (.ldi ra c) s = .next t ∨ exec (.mul ra c) s = .next t) →
    (∀ r : RegIndex, ra ≠ .byte (BitVec.ofNat 8 r.val) → t.regs[r] = s.regs[r]) ∧
    (∀ a : Nat, memGet t.mem a = memGet s.mem a) ∧
    t.out = s.out ∧
    ((t.rs = s.rs ∧ t.err = s.err) ∨ (t.rs = .errored ∧ t.regs = s.regs ∧ t.pc = s.pc))

/-- What PRN leaves unchanged whenever it answers a next state: every register, every cell of memory, every value already
emitted; RS and ERR too unless an error is taken, and then OUT and `pc`. -/
def Obligations.PrnFrame : Prop :=
  ∀ (s t : State) (ra : Cell), exec (.prn ra) s = .next t →
    (∀ r : RegIndex, t.regs[r] = s.regs[r]) ∧
    (∀ a : Nat, memGet t.mem a = memGet s.mem a) ∧
    t.out.take s.out.length = s.out ∧
    ((t.rs = s.rs ∧ t.err = s.err) ∨ (t.rs = .errored ∧ t.out = s.out ∧ t.pc = s.pc))

/-- What HLT leaves unchanged whenever it answers a next state: everything but RS. -/
def Obligations.HltFrame : Prop :=
  ∀ s t : State, exec .hlt s = .next t →
    (∀ r : RegIndex, t.regs[r] = s.regs[r]) ∧
    (∀ a : Nat, memGet t.mem a = memGet s.mem a) ∧
    t.out = s.out ∧ t.err = s.err ∧ t.pc = s.pc

/-! ### Rules of the whole machine -/

/-- Rule R16. How every step moves `pc`: by 3, 3, 2, not at all for HLT, not at all for an error; nothing else. -/
def Obligations.PcAdvancesByTheLength : Prop :=
  ∀ s t : State, step s = .next t →
    (t.rs = .errored ∧ t.pc = s.pc) ∨
    (t.rs = .running ∧ memGet s.mem s.pc = .byte 0x82#8 ∧ t.pc = s.pc + 3) ∨
    (t.rs = .running ∧ memGet s.mem s.pc = .byte 0xA2#8 ∧ t.pc = s.pc + 3) ∨
    (t.rs = .running ∧ memGet s.mem s.pc = .byte 0x47#8 ∧ t.pc = s.pc + 2) ∨
    (t.rs = .halted ∧ memGet s.mem s.pc = .byte 0x01#8 ∧ t.pc = s.pc)

/-- Rule R18. RS is RUNNING at first, is written to HALTED only by HLT and to ERRORED only by an error, and never leaves
either. A step exists from RUNNING only, so RS has one value in every step and no instruction can read another. -/
def Obligations.RunStateTransitions : Prop :=
  State.reset.rs = .running ∧
  ∀ s t : State, step s = .next t → s.rs = .running ∧
    (t.rs = .running ∨
      (s.pc ≤ 255 ∧ memGet s.mem s.pc = .byte 0x01#8 ∧ t = { s with rs := .halted }) ∨
      ∃ e : Error, t = { s with rs := .errored, err := some e })

/-- spec/60_exceptions.md, error entry (the spec's decision D12): an errored step changes RS and ERR and nothing else. -/
def Obligations.ErroredStepChangesOnlyTheStatus : Prop :=
  ∀ s t : State, step s = .next t → t.rs = .errored →
    t.mem = s.mem ∧ t.regs = s.regs ∧ t.pc = s.pc ∧ t.out = s.out ∧ t.err.isSome = true

/-- Rule R129. ERRORED is terminal: no run of one step or more leads anywhere from it. No run clears ERR. When a run from
RUNNING without an error comes to hold one, that error is the first (ERR was none at every earlier state of the run) and the
only one (the machine is ERRORED and the run has no further state). -/
def Obligations.ErrorsAreFinal : Prop :=
  (∀ (s t : State) (k : Nat), s.rs = .errored → core.run (k + 1) s ≠ .next t) ∧
  (∀ (s t : State) (k : Nat), core.run k s = .next t → s.err.isSome = true → t.err.isSome = true) ∧
  (∀ (s t : State) (k : Nat), s.rs = .running → s.err = none → core.run k s = .next t → t.err.isSome = true →
    t.rs = .errored ∧
    (∀ (j : Nat) (u : State), j < k → core.run j s = .next u → u.err = none) ∧
    ∀ (n : Nat) (u : State), core.run (k + (n + 1)) s ≠ .next u)

/-- Rule R14. Writes: a register changes only in a completed LDI or MUL, and it is the one the first operand cell names.
Reads: LDI and HLT behave alike whatever the registers hold, PRN and MUL whatever the registers they do not name hold.
Load leaves the register file as it is at reset. -/
def Obligations.RegisterFileUse : Prop :=
  (∀ (s t : State) (r : RegIndex), step s = .next t → t.regs[r] ≠ s.regs[r] →
    memGet s.mem (s.pc + 1) = .byte (BitVec.ofNat 8 r.val) ∧
      (memGet s.mem s.pc = .byte 0x82#8 ∨ memGet s.mem s.pc = .byte 0xA2#8)) ∧
  (∀ (i : Instr) (s t : State) (other : Vector Cell 8),
    (∀ r : RegIndex,
      (i = .prn (.byte (BitVec.ofNat 8 r.val)) ∨
        ∃ c : Cell, i = .mul (.byte (BitVec.ofNat 8 r.val)) c ∨ i = .mul c (.byte (BitVec.ofNat 8 r.val))) →
      other[r] = s.regs[r]) →
    exec i s = .next t →
    ∃ u : State, exec i { s with regs := other } = .next u ∧
      u = { t with regs := u.regs } ∧
      ∀ r : RegIndex, u.regs[r] ≠ other[r] → u.regs[r] = t.regs[r]) ∧
  (∀ (image : List Byte) (s : State), load image = .ok s → s.regs = State.reset.regs)

/-- spec/10_state.md, output (the interface is the spec's decision D15): OUT grows only in a completed PRN, by the byte of
the register it names, and is never shortened. -/
def Obligations.OutputGrowsOnlyByPrn : Prop :=
  ∀ s t : State, step s = .next t →
    t.out = s.out ∨
    (memGet s.mem s.pc = .byte 0x47#8 ∧ t.rs = .running ∧ ∃ (r : RegIndex) (v : Byte),
      memGet s.mem (s.pc + 1) = .byte (BitVec.ofNat 8 r.val) ∧ s.regs[r] = .byte v ∧ t.out = s.out ++ [v])

/-- spec/20_memory.md: an out-of-range memory address that a step records is 256, from every `pc` in range (the spec's
decisions D10 and D11). -/
def Obligations.OutOfRangeAddressIs256 : Prop :=
  ∀ (s t : State) (a : Nat), s.PcInRange → step s = .next t → t.rs = .errored →
    t.err = some (.outOfBoundsAddress (.mem a)) → a = 256

/-- spec/10_state.md, invariants of every reachable state: `pc` at most 256, ERR and RS agree, a halted machine stands at a
HLT cell; and with them memory's canonical form, which is the model's own choice (log entry 8) and no invariant of the
spec's. Every step keeps them, from every state that has them. -/
def Obligations.EveryStepKeepsTheInvariant : Prop :=
  ∀ s t : State, s.Inv → step s = .next t → t.Inv

/-- spec/10_state.md: the invariants hold at reset (ERR at reset is the spec's decision D3), and so does memory's canonical
form. That form is the model's own choice (log entry 8), and so is that State.reset is the reset state of the empty image
(log entry 2). -/
def Obligations.ResetMeetsTheInvariant : Prop := State.reset.Inv

/-- spec/10_state.md: the invariants hold after Load of any image, and so does memory's canonical form, which is the model's
own choice (log entry 8). -/
def Obligations.LoadMeetsTheInvariant : Prop :=
  ∀ (image : List Byte) (s : State), load image = .ok s → s.Inv

/-- spec/30_encoding.md and spec/20_memory.md: a step depends on memory through its instruction's own cells alone. With any
other memory that holds the same instruction at `pc`, it does the same; the fault in a terminal state is the model's own
(log entry 1). -/
def Obligations.StepReadsOnlyItsOwnCells : Prop :=
  ∀ (s : State) (other : Memory) (i : Instr), fetch s = .ok i →
    (∀ k : Nat, k < i.length → memGet other (s.pc + k) = memGet s.mem (s.pc + k)) →
    step { s with mem := other } =
      match step s with
      | .next t => .next { t with mem := other }
      | .fault f => .fault f
      | .refused r => .refused r

/-! ### Memory, reset and Load -/

/-- Rule R30. A read above 255 raises; otherwise it answers the cell, EMPTY included, which is no error. -/
def Obligations.MemReadContract : Prop :=
  ∀ (m : Memory) (a : Nat),
    (255 < a → memRead m a = .error (.outOfBoundsAddress (.mem a))) ∧
    (a ≤ 255 → memRead m a = .ok (memGet m a))

/-- Rule R31. A write above 255 raises; otherwise that cell holds the byte and no other cell changes; no step writes. -/
def Obligations.MemWriteContract : Prop :=
  (∀ (m : Memory) (a : Nat) (v : Byte), 255 < a → memWrite m a v = .error (.outOfBoundsAddress (.mem a))) ∧
  (∀ (m : Memory) (a : Nat) (v : Byte), a ≤ 255 → ∃ m' : Memory, memWrite m a v = .ok m' ∧
    memGet m' a = .byte v ∧ ∀ b : Nat, b ≠ a → memGet m' b = memGet m b) ∧
  (∀ s t : State, step s = .next t → t.mem = s.mem)

/-- spec/10_state.md, reset values, and spec/70_reset_and_hazards.md, Load (registers, ERR and OUT: the spec's decisions D2
and D3): the image's bytes from address 0, EMPTY above them, and every other item at its reset value. -/
def Obligations.LoadBuildsTheResetState : Prop :=
  ∀ image : List Byte, image.length ≤ 256 → ∃ s : State, load image = .ok s ∧
    (∀ (a : Nat) (h : a < image.length), memGet s.mem a = .byte image[a]) ∧
    (∀ a : Nat, image.length ≤ a → memGet s.mem a = .empty) ∧
    (∀ r : RegIndex, s.regs[r] = .empty) ∧
    s.pc = 0 ∧ s.rs = .running ∧ s.err = none ∧ s.out = []

/-- spec/70_reset_and_hazards.md (the spec's decision D17): an image of more than 256 bytes gives no instance. -/
def Obligations.OverlongImageGivesNoInstance : Prop :=
  ∀ image : List Byte, 256 < image.length → load image = .error (.outOfBoundsAddress (.mem 256))

/-- Rule R142. A loaded machine is RUNNING with `pc` = 0, and the first cell of the image is the first opcode. -/
def Obligations.ExecutionStartsAtAddressZero : Prop :=
  ∀ (image : List Byte) (s : State), load image = .ok s →
    s.rs = .running ∧ s.pc = 0 ∧ ∀ (b : Byte) (bs : List Byte), image = b :: bs → memGet s.mem s.pc = .byte b

/-- spec/10_state.md: State.reset is the reset state of the empty image, which is the model's own choice among the images
(log entry 2), so the values are the spec's (registers, ERR and OUT: its decisions D2 and D3). -/
def Obligations.ResetIsTheLoadOfTheEmptyImage : Prop :=
  load [] = .ok State.reset ∧ State.reset.pc = 0 ∧ State.reset.rs = .running ∧ State.reset.err = none ∧
  State.reset.out = [] ∧ (∀ r : RegIndex, State.reset.regs[r] = .empty) ∧
  ∀ a : Nat, memGet State.reset.mem a = .empty

/-- The model's own placing of an instruction (log entry 2): where three cells fit, the next step runs exactly the
instruction that the table's number decodes to (in a terminal state both stop alike: log entries 1 and 7). -/
def Obligations.PlacedInstructionRunsNext : Prop :=
  ∀ (s : State) (nbits w : Nat) (i : Instr), s.pc ≤ 253 → decodeTableWord nbits w = some i →
    step (s.withFetchWord nbits w) = exec i (s.withFetchWord nbits w) ∧
    ∀ a : Nat, a < s.pc ∨ s.pc + 3 ≤ a → memGet (s.withFetchWord nbits w).mem a = memGet s.mem a

/-! ### Runs -/

/-- spec/20_memory.md (the spec's decision D24): memory is constant over any number of steps. -/
def Obligations.MemoryIsConstantDuringARun : Prop :=
  ∀ (k : Nat) (s t : State), core.run k s = .next t → t.mem = s.mem

/-- spec/40_execution_loop.md, determinism of the advance: after `k` completed steps without HLT, `pc` has advanced by the
sum of the lengths of the instructions that ran. -/
def Obligations.PcIsTheSumOfTheLengths : Prop :=
  ∀ (k : Nat) (s t : State), core.run k s = .next t → t.rs = .running →
    (completed k s).length = k ∧ t.pc = s.pc + ((completed k s).map Instr.length).sum

/-- spec/10_state.md, invariants: the length of OUT grows by the number of completed PRN steps. -/
def Obligations.OutputCountsCompletedPrn : Prop :=
  ∀ (k : Nat) (s t : State), core.run k s = .next t →
    t.out.length = s.out.length + ((completed k s).filter fun i => decide (i.opcode = .prn)).length ∧
    s.out <+: t.out

/-- spec/44_hlt.md, control transfer: instructions run in strictly ascending address order; each completed step moves `pc`
up by 2 or 3. -/
def Obligations.InstructionsRunInAscendingOrder : Prop :=
  ∀ (k : Nat) (s t : State), core.run k s = .next t → t.rs = .running →
    s.pc + 2 * k ≤ t.pc ∧ t.pc ≤ s.pc + 3 * k ∧ (0 < k → t.pc ≤ 256)

/-- spec/40_execution_loop.md, every run ends: from every RUNNING state a terminal state is reached in 1 to 129 steps. -/
def Obligations.EveryRunEnds : Prop :=
  ∀ s : State, s.rs = .running → ∃ (k : Nat) (t : State), 1 ≤ k ∧ k ≤ 129 ∧ core.run k s = .next t ∧
    (t.rs = .halted ∨ t.rs = .errored)

/-- spec/40_execution_loop.md, the run, and spec/00_scope.md, the Status interface. From a RUNNING state without an error,
run is the state that some number of steps, at most 129, leads to, and it is terminal; its outcome is Halted exactly when RS
is HALTED, and Errored(e) exactly when RS is ERRORED and ERR holds e. That 129 is the fuel, and that a larger fuel changes
nothing, is the model's (log entry 5). -/
def Obligations.RunReportsAnOutcome : Prop :=
  ∀ s : State, s.rs = .running → s.err = none →
    (∃ k : Nat, k ≤ 129 ∧ core.run k s = .next (run s)) ∧
    (run s).rs ≠ .running ∧
    ((run s).outcome = some .halted ↔ (run s).rs = .halted) ∧
    (∀ e : Error, (run s).outcome = some (.errored e) ↔ (run s).rs = .errored ∧ (run s).err = some e) ∧
    ((run s).outcome = some .halted ∨ ∃ e : Error, (run s).outcome = some (.errored e)) ∧
    ∀ n : Nat, runFor (129 + n) s = run s

/-- spec/40_execution_loop.md: the loop refines the plain execution of the instructions that memory holds from `pc` up, in
order. It goes through errors and halts because, by the model's own choice, exec checks RS itself (log entry 7) and both
sides stop in a terminal state with the same fault (log entry 1). -/
def Obligations.LoopRunsTheStoredInstructionsInOrder : Prop :=
  ∀ (is : List Instr) (s : State), s.holdsAt s.pc (is.flatMap encode) →
    core.run is.length s = execAll is s

/-- spec/70_reset_and_hazards.md, boot requirements: instructions that meet them, stored from `pc` up, run to HALTED, one
step each, with no error taken. -/
def Obligations.BootReadyCodeHaltsCleanly : Prop :=
  ∀ (is : List Instr) (written : List RegIndex) (s : State), s.rs = .running →
    (∀ r ∈ written, ∃ v : Byte, s.regs[r] = .byte v) → bootReady written is = true →
    s.holdsAt s.pc (is.flatMap encode) →
    ∃ t : State, core.run is.length s = .next t ∧ t.rs = .halted ∧ t.err = s.err
end

