-- ==== Sys2Proof/Laws/Decode.lean ====
section
/-! SUPPORT. The opcode table has one row per pattern, and what the decoder can answer. -/

namespace Sys2Proof

@[simp] theorem dispatch_pattern (op : Opcode) : dispatch (.byte op.pattern) = some op := by
  cases op <;> rfl

/-- A cell that selects a row is that row's pattern, all eight bits of it (rule R56). -/
theorem dispatch_some {c : Cell} {op : Opcode} (h : dispatch c = some op) : c = .byte op.pattern := by
  cases c with
  | empty => exact nomatch h
  | byte b =>
    have := List.find?_some h
    simp only [beq_iff_eq] at this
    exact this ▸ rfl

/-- Everything the decoder reads when it succeeds: the encoding of its instruction, cell by cell, through `read`. -/
theorem decodeWith_ok {ε : Type} {read : Nat → Except ε Cell} {unknown : Cell → ε} {i : Instr}
    (h : decodeWith read unknown = .ok i) :
    ∀ k (hk : k < (encode i).length), read k = .ok ((encode i)[k]) := by
  simp only [decodeWith, bind, Except.bind] at h
  split at h
  · exact nomatch h
  rename_i ir hir
  split at h
  · exact nomatch h
  all_goals rename_i hd
  all_goals have hp := dispatch_some hd
  · split at h
    · exact nomatch h
    rename_i hra
    split at h
    · exact nomatch h
    rename_i himm
    injection h with h
    subst h hp
    intro k hk
    match k, hk with
    | 0, _ => exact hir
    | 1, _ => exact hra
    | 2, _ => exact himm
  · split at h
    · exact nomatch h
    rename_i hra
    injection h with h
    subst h hp
    intro k hk
    match k, hk with
    | 0, _ => exact hir
    | 1, _ => exact hra
  · split at h
    · exact nomatch h
    rename_i hra
    split at h
    · exact nomatch h
    rename_i hrb
    injection h with h
    subst h hp
    intro k hk
    match k, hk with
    | 0, _ => exact hir
    | 1, _ => exact hra
    | 2, _ => exact hrb
  · injection h with h
    subst h hp
    intro k hk
    match k, hk with
    | 0, _ => exact hir

/-- The decoder gives back any instruction whose cells it can read. -/
theorem decodeWith_of_reads {ε : Type} {read : Nat → Except ε Cell} {unknown : Cell → ε} (i : Instr)
    (h : ∀ k (hk : k < (encode i).length), read k = .ok ((encode i)[k])) : decodeWith read unknown = .ok i := by
  cases i with
  | ldi ra imm =>
    have h0 := h 0 (by simp [encode])
    have h1 := h 1 (by simp [encode])
    have h2 := h 2 (by simp [encode])
    simp only [encode, List.getElem_cons_zero, List.getElem_cons_succ] at h0 h1 h2
    simp [decodeWith, bind, Except.bind, h0, h1, h2]
  | prn ra =>
    have h0 := h 0 (by simp [encode])
    have h1 := h 1 (by simp [encode])
    simp only [encode, List.getElem_cons_zero, List.getElem_cons_succ] at h0 h1
    simp [decodeWith, bind, Except.bind, h0, h1]
  | mul ra rb =>
    have h0 := h 0 (by simp [encode])
    have h1 := h 1 (by simp [encode])
    have h2 := h 2 (by simp [encode])
    simp only [encode, List.getElem_cons_zero, List.getElem_cons_succ] at h0 h1 h2
    simp [decodeWith, bind, Except.bind, h0, h1, h2]
  | hlt =>
    have h0 := h 0 (by simp [encode])
    simp only [encode, List.getElem_cons_zero] at h0
    simp [decodeWith, bind, Except.bind, h0]

/-- Everything the decoder raises: the error of reading the opcode cell; the unknown opcode; or the error of the first
operand cell that cannot be read, which is one of those the opcode's row counts (rules R73, R74). -/
theorem decodeWith_error {ε : Type} {read : Nat → Except ε Cell} {unknown : Cell → ε} {e : ε}
    (h : decodeWith read unknown = .error e) :
    read 0 = .error e ∨
      ∃ ir, read 0 = .ok ir ∧
        ((dispatch ir = none ∧ e = unknown ir) ∨
          ∃ op k, dispatch ir = some op ∧ k < op.nops ∧ read (k + 1) = .error e ∧
            ∀ j, j ≤ k → ∃ c, read j = .ok c) := by
  simp only [decodeWith, bind, Except.bind] at h
  split at h
  · rename_i h0
    injection h with h
    exact .inl (h ▸ h0)
  rename_i ir hir
  refine .inr ⟨ir, hir, ?_⟩
  have first {op : Opcode} {e' : ε} (hd : dispatch ir = some op) (hn : 0 < op.nops) (h1 : read 1 = .error e') :
      ∃ op k, dispatch ir = some op ∧ k < op.nops ∧ read (k + 1) = .error e' ∧ ∀ j, j ≤ k → ∃ c, read j = .ok c :=
    ⟨op, 0, hd, hn, h1, fun j hj => ⟨ir, (Nat.le_zero.mp hj) ▸ hir⟩⟩
  have second {op : Opcode} {e' : ε} {c : Cell} (hd : dispatch ir = some op) (hn : 1 < op.nops)
      (h1 : read 1 = .ok c) (h2 : read 2 = .error e') :
      ∃ op k, dispatch ir = some op ∧ k < op.nops ∧ read (k + 1) = .error e' ∧ ∀ j, j ≤ k → ∃ c, read j = .ok c := by
    refine ⟨op, 1, hd, hn, h2, fun j hj => ?_⟩
    match j, hj with
    | 0, _ => exact ⟨ir, hir⟩
    | 1, _ => exact ⟨c, h1⟩
  split at h
  · rename_i hd
    injection h with h
    exact .inl ⟨hd, h.symm⟩
  · rename_i hd
    split at h
    · rename_i h1
      injection h with h
      exact .inr (first hd (by decide) (h ▸ h1))
    rename_i h1
    split at h
    · rename_i h2
      injection h with h
      exact .inr (second hd (by decide) h1 (h ▸ h2))
    · exact nomatch h
  · rename_i hd
    split at h
    · rename_i h1
      injection h with h
      exact .inr (first hd (by decide) (h ▸ h1))
    · exact nomatch h
  · rename_i hd
    split at h
    · rename_i h1
      injection h with h
      exact .inr (first hd (by decide) (h ▸ h1))
    rename_i h1
    split at h
    · rename_i h2
      injection h with h
      exact .inr (second hd (by decide) h1 (h ▸ h2))
    · exact nomatch h
  · exact nomatch h

end Sys2Proof
end

