-- ==== Sys2Proof/Laws/State.lean ====
section
/-! SUPPORT. What each update of the state does to each field: one lemma per field per update. -/

namespace Sys2Proof.Machine

variable (s : State)

@[simp] theorem regWrite_mem (r : RegIndex) (v : Cell) : (regWrite r v s).mem = s.mem := rfl
@[simp] theorem regWrite_regs (r : RegIndex) (v : Cell) : (regWrite r v s).regs = s.regs.set r v := rfl
@[simp] theorem regWrite_pc (r : RegIndex) (v : Cell) : (regWrite r v s).pc = s.pc := rfl
@[simp] theorem regWrite_rs (r : RegIndex) (v : Cell) : (regWrite r v s).rs = s.rs := rfl
@[simp] theorem regWrite_err (r : RegIndex) (v : Cell) : (regWrite r v s).err = s.err := rfl
@[simp] theorem regWrite_out (r : RegIndex) (v : Cell) : (regWrite r v s).out = s.out := rfl

@[simp] theorem emit_mem (v : Byte) : (emit v s).mem = s.mem := rfl
@[simp] theorem emit_regs (v : Byte) : (emit v s).regs = s.regs := rfl
@[simp] theorem emit_pc (v : Byte) : (emit v s).pc = s.pc := rfl
@[simp] theorem emit_rs (v : Byte) : (emit v s).rs = s.rs := rfl
@[simp] theorem emit_err (v : Byte) : (emit v s).err = s.err := rfl
@[simp] theorem emit_out (v : Byte) : (emit v s).out = s.out ++ [v] := rfl

@[simp] theorem advance_mem (op : Opcode) : (advance op s).mem = s.mem := rfl
@[simp] theorem advance_regs (op : Opcode) : (advance op s).regs = s.regs := rfl
@[simp] theorem advance_pc (op : Opcode) : (advance op s).pc = s.pc + 1 + op.nops := rfl
@[simp] theorem advance_rs (op : Opcode) : (advance op s).rs = s.rs := rfl
@[simp] theorem advance_err (op : Opcode) : (advance op s).err = s.err := rfl
@[simp] theorem advance_out (op : Opcode) : (advance op s).out = s.out := rfl

@[simp] theorem halt_mem : (halt s).mem = s.mem := rfl
@[simp] theorem halt_regs : (halt s).regs = s.regs := rfl
@[simp] theorem halt_pc : (halt s).pc = s.pc := rfl
@[simp] theorem halt_rs : (halt s).rs = .halted := rfl
@[simp] theorem halt_err : (halt s).err = s.err := rfl
@[simp] theorem halt_out : (halt s).out = s.out := rfl

@[simp] theorem raise_mem (e : Error) : (raise e s).mem = s.mem := rfl
@[simp] theorem raise_regs (e : Error) : (raise e s).regs = s.regs := rfl
@[simp] theorem raise_pc (e : Error) : (raise e s).pc = s.pc := rfl
@[simp] theorem raise_rs (e : Error) : (raise e s).rs = .errored := rfl
@[simp] theorem raise_err (e : Error) : (raise e s).err = some e := rfl
@[simp] theorem raise_out (e : Error) : (raise e s).out = s.out := rfl

end Sys2Proof.Machine
end

