-- ==== Sys2Proof/Laws/Memory.lean ====
section
/-! SUPPORT. Memory: read after write, and the canonical form that every memory operation keeps. -/

namespace Sys2Proof.Machine

theorem memGet_memPut_same (m : Memory) (a : Nat) (v : Byte) : memGet (memPut m a v) a = .byte v := by
  induction m with
  | nil => simp [memPut, memGet]
  | cons c rest ih =>
    obtain ⟨b, w⟩ := c
    simp only [memPut]
    split
    · simp [memGet]
    · split
      · simp [memGet]
      · rename_i h
        simp [memGet, h, ih]

theorem memGet_memPut_other (m : Memory) {a b : Nat} (v : Byte) (h : b ≠ a) :
    memGet (memPut m a v) b = memGet m b := by
  induction m with
  | nil => simp [memPut, memGet, h]
  | cons c rest ih =>
    obtain ⟨d, w⟩ := c
    simp only [memPut]
    split
    · simp [memGet, h]
    · split
      · subst_vars
        simp [memGet, h]
      · simp [memGet, ih]

theorem wfFrom_mono {lo lo' : Nat} (h : lo' ≤ lo) {m : Memory} (hm : Memory.wfFrom lo m = true) :
    Memory.wfFrom lo' m = true := by
  cases m with
  | nil => rfl
  | cons c rest =>
    simp only [Memory.wfFrom, Bool.and_eq_true, decide_eq_true_eq] at hm ⊢
    exact ⟨⟨by omega, hm.1.2⟩, hm.2⟩

theorem memPut_wfFrom {m : Memory} {lo a : Nat} (v : Byte) (hlo : lo ≤ a) (ha : a < Config.memSize)
    (hm : Memory.wfFrom lo m = true) : Memory.wfFrom lo (memPut m a v) = true := by
  induction m generalizing lo with
  | nil => simpa [memPut, Memory.wfFrom, hlo] using ha
  | cons c rest ih =>
    obtain ⟨b, w⟩ := c
    simp only [Memory.wfFrom, Bool.and_eq_true, decide_eq_true_eq] at hm
    simp only [memPut]
    split
    · simp only [Memory.wfFrom, Bool.and_eq_true, decide_eq_true_eq]
      exact ⟨⟨hlo, ha⟩, ⟨by omega, hm.1.2⟩, hm.2⟩
    · split
      · subst_vars
        simp only [Memory.wfFrom, Bool.and_eq_true, decide_eq_true_eq]
        exact hm
      · simp only [Memory.wfFrom, Bool.and_eq_true, decide_eq_true_eq]
        exact ⟨hm.1, ih (by omega) hm.2⟩

/-- What a write that succeeds does (rules R31, R32). -/
theorem memWrite_ok {m m' : Memory} {a : Nat} {v : Byte} (h : memWrite m a v = .ok m') :
    a < Config.memSize ∧ m' = memPut m a v := by
  unfold memWrite at h
  split at h
  · exact ⟨‹_›, by injection h with h; exact h.symm⟩
  · exact nomatch h

theorem memWrite_wf {m m' : Memory} {a : Nat} {v : Byte} (hm : m.wf = true) (h : memWrite m a v = .ok m') :
    m'.wf = true := by
  obtain ⟨ha, rfl⟩ := memWrite_ok h
  exact memPut_wfFrom v (Nat.zero_le a) ha hm

theorem memWriteBytes_wf {bs : List Byte} {m m' : Memory} {a : Nat} (hm : m.wf = true)
    (h : memWriteBytes m a bs = .ok m') : m'.wf = true := by
  induction bs generalizing m a with
  | nil => injection h with h; exact h ▸ hm
  | cons b bs ih =>
    simp only [memWriteBytes, bind, Except.bind] at h
    split at h
    · exact nomatch h
    · exact ih (memWrite_wf hm ‹_›) h

theorem memPlaceBytes_wf {bs : List Byte} {m : Memory} {a : Nat} (hm : m.wf = true) :
    (memPlaceBytes m a bs).wf = true := by
  induction bs generalizing m a with
  | nil => exact hm
  | cons b bs ih =>
    simp only [memPlaceBytes]
    split
    · exact ih (memWrite_wf hm ‹_›)
    · exact hm

theorem reset_mem_wf : State.reset.mem.wf = true := rfl

theorem load_mem_wf {image : List Byte} {s : State} (h : load image = .ok s) : s.mem.wf = true := by
  simp only [load, bind, Except.bind] at h
  split at h
  · exact nomatch h
  · rename_i m hm
    injection h with h
    exact h ▸ memWriteBytes_wf reset_mem_wf hm

/-- What a checked read answers (rule R30). -/
theorem memRead_ok {m : Memory} {a : Nat} {c : Cell} (h : memRead m a = .ok c) :
    a < Config.memSize ∧ c = memGet m a := by
  unfold memRead at h
  split at h
  · exact ⟨‹_›, by injection h with h; exact h.symm⟩
  · exact nomatch h

/-- The only error of a checked read (rule R32). -/
theorem memRead_error {m : Memory} {a : Nat} {e : Error} (h : memRead m a = .error e) :
    Config.memSize ≤ a ∧ e = .outOfBoundsAddress (.mem a) := by
  unfold memRead at h
  split at h
  · exact nomatch h
  · exact ⟨by omega, by injection h with h; exact h.symm⟩

theorem memRead_inside {m : Memory} {a : Nat} (h : a < Config.memSize) : memRead m a = .ok (memGet m a) :=
  if_pos h

theorem memRead_outside {m : Memory} {a : Nat} (h : Config.memSize ≤ a) :
    memRead m a = .error (.outOfBoundsAddress (.mem a)) :=
  if_neg (Nat.not_lt.mpr h)

theorem memWrite_inside {m : Memory} {a : Nat} {v : Byte} (h : a < Config.memSize) :
    memWrite m a v = .ok (memPut m a v) :=
  if_pos h

theorem memWrite_outside {m : Memory} {a : Nat} {v : Byte} (h : Config.memSize ≤ a) :
    memWrite m a v = .error (.outOfBoundsAddress (.mem a)) :=
  if_neg (Nat.not_lt.mpr h)

/-- Bytes that fit are all written, each at its own address, and no other address changes. -/
theorem memWriteBytes_fits {bs : List Byte} {m : Memory} {a : Nat} (h : a + bs.length ≤ Config.memSize) :
    ∃ m', memWriteBytes m a bs = .ok m' ∧
      (∀ k (hk : k < bs.length), memGet m' (a + k) = .byte bs[k]) ∧
      ∀ b, b < a ∨ a + bs.length ≤ b → memGet m' b = memGet m b := by
  induction bs generalizing m a with
  | nil => exact ⟨m, rfl, fun k hk => absurd hk (Nat.not_lt_zero k), fun _ _ => rfl⟩
  | cons b bs ih =>
    rw [List.length_cons] at h
    obtain ⟨m', hm, hin, hout⟩ := ih (m := memPut m a b) (a := a + 1) (by omega)
    refine ⟨m', ?_, ?_, ?_⟩
    · simp only [memWriteBytes, bind, Except.bind, memWrite_inside (m := m) (v := b) (show a < Config.memSize by omega)]
      exact hm
    · intro k hk
      cases k with
      | zero => exact (hout a (.inl (Nat.lt_succ_self a))).trans (memGet_memPut_same m a b)
      | succ k =>
        rw [show a + (k + 1) = a + 1 + k by omega]
        simpa using hin k (by simpa using hk)
    · intro c hc
      rw [List.length_cons] at hc
      rw [hout c (by omega), memGet_memPut_other m b (by omega)]

end Sys2Proof.Machine
end

