-- ==== Sys2Proof/Laws/Operands.lean ====
section
/-! SUPPORT. What the operand forms and the ALU can answer. -/

namespace Sys2Proof.Machine

/-- The cell that names register `r`. -/
def indexCell (r : RegIndex) : Cell := .byte (BitVec.ofNat 8 r.val)

@[simp] theorem regCheck_indexCell (r : RegIndex) : regCheck (indexCell r) = .ok r := by
  revert r
  decide

/-- A register index that passes the check is that register's own cell: no other cell selects it (rule R39). -/
theorem regCheck_ok {c : Cell} {r : RegIndex} (h : regCheck c = .ok r) : c = indexCell r := by
  cases c with
  | empty => exact nomatch h
  | byte b =>
    simp only [regCheck] at h
    split at h
    · injection h with h
      subst h
      simp [indexCell]
    · exact nomatch h

/-- The only error of the index check (rule R39). -/
theorem regCheck_error {c : Cell} {e : Error} (h : regCheck c = .error e) :
    e = .outOfBoundsAddress (.reg c) := by
  cases c with
  | empty => injection h with h; exact h.symm
  | byte b =>
    simp only [regCheck] at h
    split at h
    · exact nomatch h
    · injection h with h; exact h.symm

/-- The index check passes exactly on the cells `Cell.validIndex` accepts. -/
theorem regCheck_isOk_iff (c : Cell) : (∃ r, regCheck c = .ok r) ↔ c.validIndex = true := by
  cases c with
  | empty => simp [regCheck, Cell.validIndex]
  | byte b =>
    by_cases h : b.toNat < Config.numRegs <;> simp [regCheck, Cell.validIndex, h]

theorem sourceByte_ok {s : State} {r : RegIndex} {v : Byte} (h : sourceByte s r = .ok v) :
    regRead s r = .byte v := by
  unfold sourceByte at h
  split at h
  · injection h with h; exact h ▸ ‹_›
  · exact nomatch h

theorem sourceByte_error {s : State} {r : RegIndex} {e : Error} (h : sourceByte s r = .error e) :
    regRead s r = .empty ∧ e = .uninitializedOperand r := by
  unfold sourceByte at h
  split at h
  · exact nomatch h
  · exact ⟨‹_›, by injection h with h; exact h.symm⟩

/-- Everything the ALU does when it succeeds (rule R100): the operation is MUL, both indices and both sources are
there, and one register is written. -/
theorem aluApply_ok {op : AluOp} {ra rb : Cell} {s t : State} (h : aluApply op ra rb s = .ok t) :
    op = .mul ∧ ∃ a b x y, ra = indexCell a ∧ rb = indexCell b ∧ regRead s a = .byte x ∧ regRead s b = .byte y ∧
      t = regWrite a (.byte (mulLow x y)) s := by
  cases op with
  | add => exact nomatch h
  | other k => exact nomatch h
  | mul =>
    simp only [aluApply, bind, Except.bind] at h
    split at h
    · exact nomatch h
    rename_i a ha
    split at h
    · exact nomatch h
    rename_i b hb
    split at h
    · exact nomatch h
    rename_i x hx
    split at h
    · exact nomatch h
    rename_i y hy
    injection h with h
    exact ⟨rfl, a, b, x, y, regCheck_ok ha, regCheck_ok hb, sourceByte_ok hx, sourceByte_ok hy, h.symm⟩

/-- Everything the ALU raises for MUL, in the order of its checks (rules R77, R100). -/
theorem aluApply_mul_error {ra rb : Cell} {s : State} {e : Error} (h : aluApply .mul ra rb s = .error e) :
    e = .outOfBoundsAddress (.reg ra) ∨ e = .outOfBoundsAddress (.reg rb) ∨
      (∃ a, ra = indexCell a ∧ regRead s a = .empty ∧ e = .uninitializedOperand a) ∨
      (∃ b, rb = indexCell b ∧ regRead s b = .empty ∧ e = .uninitializedOperand b) := by
  simp only [aluApply, bind, Except.bind] at h
  split at h
  · rename_i ha
    injection h with h
    exact .inl (h ▸ regCheck_error ha)
  rename_i a ha
  split at h
  · rename_i hb
    injection h with h
    exact .inr (.inl (h ▸ regCheck_error hb))
  rename_i b hb
  split at h
  · rename_i hx
    injection h with h
    exact .inr (.inr (.inl ⟨a, regCheck_ok ha, (sourceByte_error hx).1, h ▸ (sourceByte_error hx).2⟩))
  split at h
  · rename_i hy
    injection h with h
    exact .inr (.inr (.inr ⟨b, regCheck_ok hb, (sourceByte_error hy).1, h ▸ (sourceByte_error hy).2⟩))
  · exact nomatch h

end Sys2Proof.Machine
end

