-- ==== Sys2Proof/Laws/PerInstr.lean ====
section
/-! SUPPORT. Statements for all instructions, one lemma per constructor. -/

namespace Sys2Proof.Laws.EncodingShape

/-- The encoding of an instruction is its length in cells, and begins with its row's pattern (rules R51, R60). -/
def Statement (i : Instr) : Prop :=
  (encode i).length = i.length ∧ (encode i)[0]? = some (.byte i.opcode.pattern)

theorem ldi (ra imm : Cell) : Statement (.ldi ra imm) := ⟨rfl, rfl⟩

theorem prn (ra : Cell) : Statement (.prn ra) := ⟨rfl, rfl⟩

theorem mul (ra rb : Cell) : Statement (.mul ra rb) := ⟨rfl, rfl⟩

theorem hlt : Statement .hlt := ⟨rfl, rfl⟩

end Sys2Proof.Laws.EncodingShape
end

