-- ==== Sys2Proof/Laws/Step.lean ====
section
/-! SUPPORT. What a step can do, said once: how it ends, what each meaning answers, and what a fetch answers. -/

namespace Sys2Proof.Machine

/-- A completed step from RUNNING answers the state it made. -/
theorem settle_ok {s : State} (hs : s.rs = .running) (t : State) : settle s (.ok t) = .next t := by
  simp only [settle, hs]

/-- An errored step from RUNNING answers the state before it with the error taken (rule R126). -/
theorem settle_error {s : State} (hs : s.rs = .running) (e : Error) : settle s (.error e) = .next (raise e s) := by
  simp only [settle, hs]

/-- A step that answers a next state ran from RUNNING, and completed or took an error. -/
theorem settle_next {s t : State} {r : Except Error State} (h : settle s r = .next t) :
    s.rs = .running ∧ (r = .ok t ∨ ∃ e, r = .error e ∧ t = raise e s) := by
  unfold settle at h
  split at h
  · exact nomatch h
  · exact nomatch h
  rename_i hs
  refine ⟨hs, ?_⟩
  split at h
  · injection h with h
    exact .inl (h ▸ rfl)
  · rename_i e
    injection h with h
    exact .inr ⟨e, rfl, h.symm⟩

/-- No step from a terminal state (rule R82). -/
theorem settle_fault {s : State} {r : Except Error State} {f : Fault} (h : settle s r = .fault f) :
    (s.rs = .halted ∧ f = .haltedNoStep) ∨ (s.rs = .errored ∧ f = .erroredNoStep) := by
  unfold settle at h
  split at h
  · injection h with h
    exact .inl ⟨‹_›, h.symm⟩
  · injection h with h
    exact .inr ⟨‹_›, h.symm⟩
  · split at h <;> exact nomatch h

/-- What a handler does to the state when its instruction completes: one case per instruction. -/
inductive Completes (s : State) : Instr → State → Prop where
  | ldi (r : RegIndex) (imm : Cell) : Completes s (.ldi (indexCell r) imm) (advance .ldi (regWrite r imm s))
  | prn (r : RegIndex) (v : Byte) (hv : regRead s r = .byte v) :
    Completes s (.prn (indexCell r)) (advance .prn (emit v s))
  | mul (a b : RegIndex) (x y : Byte) (hx : regRead s a = .byte x) (hy : regRead s b = .byte y) :
    Completes s (.mul (indexCell a) (indexCell b)) (advance .mul (regWrite a (.byte (mulLow x y)) s))
  | hlt : Completes s .hlt (halt s)

/-- Everything an instruction does when it answers a next state: it ran from RUNNING, and either completed or took an
error other than the ALU's UnsupportedALUOperation and the decoder's UnknownOpcode. -/
theorem exec_next {i : Instr} {s t : State} (h : exec i s = .next t) :
    s.rs = .running ∧
      (Completes s i t ∨
        ∃ e, t = raise e s ∧
          ((∃ c, e = .outOfBoundsAddress (.reg c)) ∨ ∃ r, regRead s r = .empty ∧ e = .uninitializedOperand r)) := by
  cases i with
  | ldi ra imm =>
    obtain ⟨hs, hr | ⟨e, hr, rfl⟩⟩ := settle_next h
    all_goals simp only [bind, Except.bind] at hr
    · split at hr
      · exact nomatch hr
      rename_i r hc
      injection hr with hr
      subst hr
      cases regCheck_ok hc
      exact ⟨hs, .inl (.ldi r imm)⟩
    · split at hr
      · rename_i hc
        injection hr with hr
        exact ⟨hs, .inr ⟨e, rfl, .inl ⟨ra, hr ▸ regCheck_error hc⟩⟩⟩
      · exact nomatch hr
  | prn ra =>
    obtain ⟨hs, hr | ⟨e, hr, rfl⟩⟩ := settle_next h
    all_goals simp only [bind, Except.bind] at hr
    · split at hr
      · exact nomatch hr
      rename_i r hc
      split at hr
      · exact nomatch hr
      rename_i v hv
      injection hr with hr
      subst hr
      cases regCheck_ok hc
      exact ⟨hs, .inl (.prn r v (sourceByte_ok hv))⟩
    · split at hr
      · rename_i hc
        injection hr with hr
        exact ⟨hs, .inr ⟨e, rfl, .inl ⟨ra, hr ▸ regCheck_error hc⟩⟩⟩
      rename_i r hc
      split at hr
      · rename_i hv
        injection hr with hr
        exact ⟨hs, .inr ⟨e, rfl, .inr ⟨r, (sourceByte_error hv).1, hr ▸ (sourceByte_error hv).2⟩⟩⟩
      · exact nomatch hr
  | mul ra rb =>
    obtain ⟨hs, hr | ⟨e, hr, rfl⟩⟩ := settle_next h
    all_goals simp only [bind, Except.bind] at hr
    · split at hr
      · exact nomatch hr
      rename_i u hu
      injection hr with hr
      subst hr
      obtain ⟨-, a, b, x, y, rfl, rfl, hx, hy, rfl⟩ := aluApply_ok hu
      exact ⟨hs, .inl (.mul a b x y hx hy)⟩
    · split at hr
      · rename_i hu
        injection hr with hr
        subst hr
        refine ⟨hs, .inr ⟨_, rfl, ?_⟩⟩
        rcases aluApply_mul_error hu with h | h | ⟨a, -, h, h'⟩ | ⟨b, -, h, h'⟩
        · exact .inl ⟨ra, h⟩
        · exact .inl ⟨rb, h⟩
        · exact .inr ⟨a, h, h'⟩
        · exact .inr ⟨b, h, h'⟩
      · exact nomatch hr
  | hlt =>
    have h : settle s (.ok (halt s)) = .next t := h
    obtain ⟨hs, hr | ⟨e, hr, rfl⟩⟩ := settle_next h
    · injection hr with hr
      subst hr
      exact ⟨hs, .inl .hlt⟩
    · exact nomatch hr

/-- Every meaning is a settled handler: it answers a next state in RUNNING and only there. -/
theorem exec_eq_settle (i : Instr) (s : State) : ∃ r, exec i s = settle s r := by
  cases i with
  | ldi ra imm => exact ⟨_, rfl⟩
  | prn ra => exact ⟨_, rfl⟩
  | mul ra rb => exact ⟨_, rfl⟩
  | hlt => exact ⟨.ok (halt s), rfl⟩

/-- What a successful fetch read: the encoding of its instruction, in memory from `pc` up (rules R72, R74). -/
theorem fetch_ok {s : State} {i : Instr} (h : fetch s = .ok i) :
    ∀ k (hk : k < (encode i).length), s.pc + k < Config.memSize ∧ memGet s.mem (s.pc + k) = (encode i)[k] := by
  intro k hk
  obtain ⟨ha, hc⟩ := memRead_ok (decodeWith_ok h k hk)
  exact ⟨ha, hc.symm⟩

/-- An instruction in memory at `pc` is what the fetch answers. -/
theorem fetch_of_encoded {s : State} (i : Instr)
    (h : ∀ k (hk : k < (encode i).length), s.pc + k < Config.memSize ∧ memGet s.mem (s.pc + k) = (encode i)[k]) :
    fetch s = .ok i := by
  apply decodeWith_of_reads
  intro k hk
  obtain ⟨ha, hc⟩ := h k hk
  rw [memRead, if_pos ha, hc]

/-- Everything a fetch raises (rules R72 to R74): the address of the opcode cell, above 255; an opcode cell without a row;
or the first address above 255 among those of the operand cells its row counts. -/
theorem fetch_error {s : State} {e : Error} (h : fetch s = .error e) :
    (Config.memSize ≤ s.pc ∧ e = .outOfBoundsAddress (.mem s.pc)) ∨
      (s.pc < Config.memSize ∧
        ((dispatch (memGet s.mem s.pc) = none ∧ e = .unknownOpcode (memGet s.mem s.pc) s.pc) ∨
          ∃ op k, dispatch (memGet s.mem s.pc) = some op ∧ k < op.nops ∧ s.pc + k + 1 = Config.memSize ∧
            e = .outOfBoundsAddress (.mem Config.memSize))) := by
  rcases decodeWith_error h with hr | ⟨ir, hr, ⟨hd, he⟩ | ⟨op, k, hd, hk, hr', hj⟩⟩
  · exact .inl (memRead_error hr)
  · obtain ⟨ha, rfl⟩ := memRead_ok hr
    exact .inr ⟨ha, .inl ⟨hd, he⟩⟩
  · obtain ⟨ha, rfl⟩ := memRead_ok hr
    obtain ⟨hb, rfl⟩ := memRead_error hr'
    obtain ⟨c, hc⟩ := hj k (Nat.le_refl k)
    have hlt := (memRead_ok hc).1
    have heq : s.pc + (k + 1) = Config.memSize := by omega
    exact .inr ⟨ha, .inr ⟨op, k, hd, hk, heq, by rw [heq]⟩⟩

/-- Everything a step does when it answers a next state: it ran from RUNNING, and the fetched instruction completed, or
an error was taken and nothing but RS and ERR changed. -/
theorem step_next {s t : State} (h : step s = .next t) :
    s.rs = .running ∧ ((∃ i, fetch s = .ok i ∧ Completes s i t) ∨ ∃ e, t = raise e s) := by
  unfold step at h
  split at h
  · rename_i i hi
    obtain ⟨hs, hc | ⟨e, ht, -⟩⟩ := exec_next h
    · exact ⟨hs, .inl ⟨i, hi, hc⟩⟩
    · exact ⟨hs, .inr ⟨e, ht⟩⟩
  · obtain ⟨hs, hr | ⟨e, -, ht⟩⟩ := settle_next h
    · exact nomatch hr
    · exact ⟨hs, .inr ⟨e, ht⟩⟩

/-- Every step is a settled one. -/
theorem step_eq_settle (s : State) : ∃ r, step s = settle s r := by
  unfold step
  split
  · exact exec_eq_settle _ s
  · exact ⟨_, rfl⟩

/-- A RUNNING machine always has a next state (rules R70, R131). -/
theorem step_of_running {s : State} (hs : s.rs = .running) : ∃ t, step s = .next t := by
  obtain ⟨r, hr⟩ := step_eq_settle s
  cases r with
  | ok t => exact ⟨t, hr.trans (settle_ok hs t)⟩
  | error e => exact ⟨raise e s, hr.trans (settle_error hs e)⟩

end Sys2Proof.Machine
end

