-- ==== Sys2Proof/Laws/Run.lean ====
section
/-! SUPPORT. Runs: one step at a time, joined, and stopped at a terminal state. -/

namespace Sys2Proof.Machine

theorem encode_length (i : Instr) : (encode i).length = i.length := by
  cases i <;> rfl

theorem step_eq_exec {s : State} {i : Instr} (h : fetch s = .ok i) : step s = exec i s := by
  simp only [step, h]

/-- An errored fetch is taken like any other error (rule R126). -/
theorem step_fetch_error {s : State} {e : Error} (hs : s.rs = .running) (h : fetch s = .error e) :
    step s = .next (raise e s) := by
  simp only [step, h, settle_error hs]

/-- A run of at least one step is that step and then the rest. -/
theorem run_succ_next {k : Nat} {s t : State} (h : core.run (k + 1) s = .next t) :
    ∃ u, step s = .next u ∧ core.run k u = .next t := by
  have hc : core.step s = step s := rfl
  simp only [Host.Core.run, hc] at h
  cases hs : step s with
  | next u =>
    rw [hs] at h
    exact ⟨u, rfl, h⟩
  | fault f =>
    rw [hs] at h
    exact nomatch h
  | refused r =>
    rw [hs] at h
    exact nomatch h

theorem run_succ_of_next {s u : State} (h : step s = .next u) (k : Nat) : core.run (k + 1) s = core.run k u := by
  have hc : core.step s = .next u := h
  simp only [Host.Core.run, hc]

theorem run_succ_of_fault {s : State} {f : Fault} (h : step s = .fault f) (k : Nat) :
    core.run (k + 1) s = .fault f := by
  have hc : core.step s = .fault f := h
  simp only [Host.Core.run, hc]

theorem run_add {s t : State} (k n : Nat) (h : core.run k s = .next t) : core.run (k + n) s = core.run n t := by
  induction k generalizing s with
  | zero =>
    injection h with h
    subst h
    rw [Nat.zero_add]
  | succ k ih =>
    obtain ⟨u, hu, hk⟩ := run_succ_next h
    rw [Nat.succ_add, run_succ_of_next hu, ih hk]

theorem step_of_halted {s : State} (h : s.rs = .halted) : step s = .fault .haltedNoStep := by
  obtain ⟨r, hr⟩ := step_eq_settle s
  rw [hr]
  simp only [settle, h]

theorem step_of_errored {s : State} (h : s.rs = .errored) : step s = .fault .erroredNoStep := by
  obtain ⟨r, hr⟩ := step_eq_settle s
  rw [hr]
  simp only [settle, h]

/-- A completed instruction that leaves the machine RUNNING advances `pc` by its length (rule R76). -/
theorem completes_pc {s t : State} {i : Instr} (h : Completes s i t) (ht : t.rs = .running) :
    t.pc = s.pc + i.length := by
  cases h <;> simp [Instr.length, Instr.opcode, Opcode.nops] at ht ⊢

/-- Cells held from an address on, one by one. -/
theorem holdsAt_append {s : State} {a : Nat} {xs ys : List Cell} :
    s.holdsAt a (xs ++ ys) ↔ s.holdsAt a xs ∧ s.holdsAt (a + xs.length) ys := by
  induction xs generalizing a with
  | nil => simp [State.holdsAt]
  | cons x xs ih =>
    simp only [List.cons_append, State.holdsAt, ih, List.length_cons, and_assoc]
    rw [show a + 1 + xs.length = a + (xs.length + 1) by omega]

end Sys2Proof.Machine
end

