-- ==== Sys2Proof/Tests/Slice0.lean ====
section
/-! SUPPORT. Tests of single steps against spec/95_test_vectors.md, the checks of WellFormed on ill-formed terms, and for
every statement with hypotheses a concrete case that meets them (at the edges of each clause's range). -/

namespace Sys2Proof.Tests

open Sys2Proof.Machine

/-- The state after Load, for an image that fits. -/
def loaded (image : List Byte) : State :=
  match load image with
  | .ok s => s
  | .error _ => State.reset

/-- A RUNNING state about to fetch at `pc`, with these bytes in memory from there. -/
def startAt (pc : Nat) (bytes : List Byte) : State :=
  { State.reset with pc := pc, mem := memPlaceBytes [] pc bytes }

/-- The same with one register set. -/
def withReg (s : State) (r : RegIndex) (v : Byte) : State := regWrite r (.byte v) s

/-- The next state, where there is one. -/
def nextOf : Host.Outcome State Fault Refusal → Option State
  | .next t => some t
  | .fault _ => none
  | .refused _ => none

/-! ### Well-formedness refuses each ill-formed operand -/

theorem test_wellFormed_ldi_index : Instr.wellFormed (.ldi (.byte 8#8) (.byte 0#8)) = false := by decide
theorem test_wellFormed_prn_index : Instr.wellFormed (.prn .empty) = false := by decide
theorem test_wellFormed_mul_first : Instr.wellFormed (.mul (.byte 0xFF#8) (.byte 0#8)) = false := by decide
theorem test_wellFormed_mul_second : Instr.wellFormed (.mul (.byte 7#8) (.byte 8#8)) = false := by decide
theorem test_wellFormed_accepts : Instr.wellFormed (.mul (.byte 7#8) (.byte 0#8)) = true ∧
    Instr.wellFormed (.ldi (.byte 7#8) .empty) = true ∧ Instr.wellFormed .hlt = true := by decide

/-! ### Decoding: words written out bit by bit from Table R55 and from S1, S2 -/

theorem test_decode_ldi : decode [.byte 0b10000010#8, .byte 0b00000000#8, .byte 0b00101010#8] =
    .ok (.ldi (.byte 0#8) (.byte 42#8), []) := by rfl
theorem test_decode_prn : decode [.byte 0b01000111#8, .byte 0b00000111#8] = .ok (.prn (.byte 7#8), []) := by rfl
theorem test_decode_mul : decode [.byte 0b10100010#8, .byte 0b00000001#8, .byte 0b00000010#8] =
    .ok (.mul (.byte 1#8) (.byte 2#8), []) := by rfl
theorem test_decode_hlt : decode [.byte 0b00000001#8, .byte 0b11111111#8] = .ok (.hlt, [.byte 0b11111111#8]) := by rfl
/-- V2 to V7: one bit away from an opcode is no opcode. -/
theorem test_decode_near_misses : ([0x00#8, 0x02#8, 0x83#8, 0xA0#8, 0x46#8, 0xC2#8].map fun b =>
    (dispatch (.byte b)).isNone) = [true, true, true, true, true, true] := by decide
/-- V25: an operand cell may be EMPTY. -/
theorem test_decode_empty_operand : decode [.byte 0x82#8, .empty, .empty] = .ok (.ldi .empty .empty, []) := by rfl
theorem test_decode_missing_operand : decode [.byte 0xA2#8, .byte 0#8] = .error (.missingCell 2) := by rfl
/-- The host's numbering with no operand bits: operand bytes of zero. -/
theorem test_decodeTableWord : decodeTableWord 8 0x82 = some (.ldi (.byte 0#8) (.byte 0#8)) ∧
    decodeTableWord 24 0x0901A2 = some (.mul (.byte 1#8) (.byte 9#8)) ∧ decodeTableWord 8 0xFF = none := by decide

/-! ### Single steps (Part 1 and Part 2 of the vectors) -/

/-- S1, first step. -/
theorem test_ldi : nextOf (step (loaded [0x82#8, 0x00#8, 0x2A#8])) =
    some { withReg (loaded [0x82#8, 0x00#8, 0x2A#8]) 0 42#8 with pc := 3 } := by decide
/-- V24: the index is not masked. -/
theorem test_ldi_index_not_masked : (nextOf (step (loaded [0x82#8, 0xFF#8, 0x05#8]))).map (fun t => (t.rs, t.err, t.pc)) =
    some (.errored, some (.outOfBoundsAddress (.reg (.byte 0xFF#8))), 0) := by decide
/-- V10 and V14: the top of memory. -/
theorem test_prn_at_the_top : (nextOf (step (startAt 255 [0x47#8]))).map (fun t => (t.rs, t.err, t.pc)) =
    some (.errored, some (.outOfBoundsAddress (.mem 256)), 255) := by decide
/-- S1, second step, with the register set by hand. -/
theorem test_prn : (nextOf (step (withReg (startAt 3 [0x47#8, 0x00#8]) 0 42#8))).map (fun t => (t.out, t.pc, t.rs)) =
    some ([42#8], 5, .running) := by decide
/-- S2: 6 times 7, B unchanged. -/
theorem test_mul : (nextOf (step (withReg (withReg (startAt 6 [0xA2#8, 0x00#8, 0x01#8]) 0 6#8) 1 7#8))).map
    (fun t => (t.regs[0], t.regs[1], t.pc)) = some (.byte 42#8, .byte 7#8, 9) := by decide
/-- V57: 255 squared keeps its low byte, source and destination the same register. -/
theorem test_mul_squares_and_truncates : (nextOf (step (withReg (startAt 0 [0xA2#8, 0x04#8, 0x04#8]) 4 255#8))).map
    (fun t => t.regs[4]) = some (.byte 1#8) := by decide
/-- V9: HLT at address 255. -/
theorem test_hlt_at_the_top : (nextOf (step (startAt 255 [0x01#8]))).map (fun t => (t.rs, t.pc, t.err)) =
    some (.halted, 255, none) := by decide
/-- V73. -/
theorem test_no_step_when_halted : nextOf (step (halt (loaded [0x01#8]))) = none := by decide
/-- V1: the empty image. -/
theorem test_empty_image : (nextOf (step (loaded []))).map (fun t => (t.rs, t.err, t.pc)) =
    some (.errored, some (.unknownOpcode .empty 0), 0) := by decide
/-- V64: the ALU block alone. -/
theorem test_alu_add : aluApply .add (.byte 0#8) (.byte 1#8) State.reset = .error (.unsupportedALUOperation .add) := by rfl
/-- V40 to V52, the products that wrap. -/
theorem test_products : [mulLow 16#8 16#8, mulLow 3#8 100#8, mulLow 200#8 2#8, mulLow 255#8 2#8, mulLow 17#8 241#8] =
    [0#8, 44#8, 144#8, 254#8, 1#8] := by decide
/-- R96 and the document's example: 42 is shown as the two digits. -/
theorem test_hostLine : (hostLine 42#8, hostLine 0#8, hostLine 255#8) = (['4', '2'], ['0'], ['2', '5', '5']) := by decide
theorem test_withFetchWord : nextOf (step (State.reset.withFetchWord 8 0x01)) =
    some (halt (State.reset.withFetchWord 8 0x01)) := by decide

/-! ### Witnesses: each statement's hypotheses can be met -/

theorem witness_OpcodeCellSelectsTheRow :
    decode [.byte 0x47#8, .empty, .byte 1#8] = .ok (.prn .empty, [.byte 1#8]) ∧ dispatch (.byte 0x00#8) = none ∧
    dispatch .empty = none := ⟨rfl, rfl, rfl⟩

theorem witness_LengthComesFromTheOpcodeAlone :
    decode [.byte 0x82#8, .byte 8#8, .empty] = .ok (.ldi (.byte 8#8) .empty, []) ∧
    decode [.byte 0xA2#8, .byte 0#8, .byte 1#8] = .ok (.mul (.byte 0#8) (.byte 1#8), []) ∧
    decode [.byte 0x47#8, .empty] = .ok (.prn .empty, []) ∧ decode [.byte 0x01#8] = .ok (.hlt, []) ∧
    ∀ c ∈ [Cell.empty, .byte 0#8], c ≠ .byte 0x82#8 ∧ c ≠ .byte 0xA2#8 ∧ c ≠ .byte 0x47#8 ∧ c ≠ .byte 0x01#8 :=
  ⟨rfl, rfl, rfl, rfl, by decide⟩

theorem witness_StepRunsTheDecodedInstruction :
    (startAt 254 [0x47#8, 0x08#8]).holdsAt 254 [.byte 0x47#8, .byte 0x08#8] ∧
    decode [.byte 0x47#8, .byte 0x08#8] = .ok (.prn (.byte 8#8), []) :=
  ⟨⟨by decide, by decide, by decide, by decide, trivial⟩, rfl⟩

theorem witness_CellsBeyondMemoryRaise :
    (startAt 256 []).rs = .running ∧ 255 < (startAt 256 []).pc ∧
    memGet (startAt 255 [0x47#8]).mem 255 ∈ [Cell.byte 0x82#8, .byte 0x47#8, .byte 0xA2#8] ∧
    memGet (startAt 254 [0xA2#8, 0x00#8]).mem 254 ∈ [Cell.byte 0x82#8, .byte 0xA2#8] := by decide

theorem witness_UndefinedOpcodeRaises :
    (startAt 255 [0xFF#8]).rs = .running ∧ (startAt 255 [0xFF#8]).pc ≤ 255 ∧
    memGet (startAt 255 [0xFF#8]).mem 255 = .byte 0xFF#8 ∧ 0xFF#8 ∉ [0x01#8, 0x47#8, 0x82#8, 0xA2#8] ∧
    memGet (startAt 0 [0x00#8]).mem 0 = .byte 0x00#8 ∧ 0x00#8 ∉ [0x01#8, 0x47#8, 0x82#8, 0xA2#8] := by decide

theorem witness_EmptyOpcodeCellRaises :
    State.reset.rs = .running ∧ State.reset.pc ≤ 255 ∧ memGet State.reset.mem State.reset.pc = .empty := by decide

theorem witness_InvalidRegisterIndexRaises :
    State.reset.rs = .running ∧ (∃ b : Byte, Cell.byte 8#8 = .byte b ∧ 7 < b.toNat) ∧ (7#8 : Byte).toNat ≤ 7 :=
  ⟨rfl, ⟨8#8, rfl, by decide⟩, by decide⟩

theorem witness_LdiCompletes : (7#8 : Byte).toNat < 8 ∧ State.reset.rs = .running := by decide

theorem witness_LdiStep :
    (∀ pc ∈ [253, 254, 255], (startAt pc [0x82#8, 0x01#8, 0x09#8]).rs = .running ∧
      memGet (startAt pc [0x82#8, 0x01#8, 0x09#8]).mem pc = .byte 0x82#8) ∧
    (nextOf (step (startAt 253 [0x82#8, 0x01#8, 0x09#8]))).map (fun t => t.regs[1]) = some (.byte 9#8) ∧
    (startAt 253 [0x82#8, 0x01#8, 0x09#8]).regs[1] = .empty := by decide

theorem witness_LdiOfEmptyImmediateEmptiesTheRegister :
    (0#8 : Byte).toNat < 8 ∧ (7#8 : Byte).toNat < 8 ∧ (withReg State.reset 7 5#8).rs = .running ∧
    (nextOf (exec (.ldi (.byte 0#8) .empty) (withReg State.reset 7 5#8))).map (fun t => (t.regs[0], t.regs[7])) =
      some (.empty, .byte 5#8) := by decide

theorem witness_LdiThenPrnEmitsTheImmediate :
    (loaded [0x82#8, 7#8, 0#8, 0x47#8, 7#8]).rs = .running ∧ (7#8 : Byte).toNat < 8 ∧
    (loaded [0x82#8, 7#8, 0#8, 0x47#8, 7#8]).holdsAt 0 [.byte 0x82#8, .byte 7#8, .byte 0#8, .byte 0x47#8, .byte 7#8] :=
  ⟨by decide, by decide, by decide, by decide, by decide, by decide, by decide, by decide, by decide, by decide,
    by decide, by decide, trivial⟩

theorem witness_PrnCompletes : (7#8 : Byte).toNat < 8 ∧ (withReg State.reset 7 255#8).rs = .running ∧
    (withReg State.reset 7 255#8).regs[7] = .byte 255#8 := by decide

theorem witness_PrnStep : ∀ pc ∈ [0, 254, 255], (startAt pc [0x47#8, 0x01#8]).rs = .running ∧
    memGet (startAt pc [0x47#8, 0x01#8]).mem pc = .byte 0x47#8 := by decide

theorem witness_AluSupportsOnlyMultiply : (0#8 : Byte).toNat < 8 ∧ (7#8 : Byte).toNat < 8 ∧
    (withReg (withReg State.reset 0 255#8) 7 255#8).regs[0] = .byte 255#8 ∧
    (withReg (withReg State.reset 0 255#8) 7 255#8).regs[7] = .byte 255#8 ∧ AluOp.add ≠ .mul ∧ AluOp.other 0 ≠ .mul := by
  decide

theorem witness_UnsupportedOperationIsNeverRecorded : AluOp.add ≠ .mul ∧
    (nextOf (step (loaded [0xA2#8, 0x00#8, 0x01#8]))).map (fun t => t.rs) = some .errored := by decide

theorem witness_MulCompletes : (7#8 : Byte).toNat < 8 ∧ (withReg State.reset 7 16#8).rs = .running ∧
    (withReg State.reset 7 16#8).regs[7] = .byte 16#8 := by decide

theorem witness_MulStep : ∀ pc ∈ [0, 253, 254, 255], (startAt pc [0xA2#8, 0x00#8, 0x01#8]).rs = .running ∧
    memGet (startAt pc [0xA2#8, 0x00#8, 0x01#8]).mem pc = .byte 0xA2#8 := by decide

theorem witness_MulCommutesInValue : (0#8 : Byte) ≠ 1#8 ∧
    (nextOf (exec (.mul (.byte 0#8) (.byte 1#8)) (withReg (withReg State.reset 0 6#8) 1 7#8))).map (fun t => t.rs) =
      some .running ∧
    (nextOf (exec (.mul (.byte 1#8) (.byte 0#8)) (withReg (withReg State.reset 0 6#8) 1 7#8))).isSome = true := by
  decide

theorem witness_HltCompletes : State.reset.rs = .running := by decide

theorem witness_HltStep : (startAt 255 [0x01#8]).rs = .running ∧ memGet (startAt 255 [0x01#8]).mem 255 = .byte 0x01#8 ∧
    (startAt 256 []).rs = .running ∧ (startAt 256 []).pc = 256 := by decide

theorem witness_LdiMulFrame : (nextOf (exec (.ldi (.byte 7#8) .empty) State.reset)).isSome = true ∧
    (nextOf (exec (.mul (.byte 0#8) .empty) State.reset)).isSome = true ∧
    Cell.byte 7#8 ≠ .byte (BitVec.ofNat 8 (6 : RegIndex).val) := by decide

theorem witness_PrnFrame : (nextOf (exec (.prn (.byte 7#8)) (withReg State.reset 7 1#8))).isSome = true ∧
    (nextOf (exec (.prn .empty) State.reset)).isSome = true := by decide

theorem witness_HltFrame : (nextOf (exec .hlt State.reset)).isSome = true := by decide

theorem witness_PcAdvancesByTheLength : ([startAt 253 [0x82#8, 0x01#8, 0x09#8], startAt 0 [0xFF#8],
    withReg (startAt 0 [0xA2#8, 0#8, 0#8]) 0 2#8, withReg (startAt 0 [0x47#8, 0#8]) 0 2#8, startAt 255 [0x01#8]].map
      fun s => (nextOf (step s)).map fun t => (t.rs, t.pc)) =
    [some (.running, 256), some (.errored, 0), some (.running, 3), some (.running, 2), some (.halted, 255)] := by decide

theorem witness_RunStateTransitions : (nextOf (step (loaded [0x01#8]))).map (fun t => t.rs) = some .halted ∧
    (nextOf (step (loaded [0xFF#8]))).map (fun t => t.rs) = some .errored := by decide

theorem witness_ErroredStepChangesOnlyTheStatus :
    (nextOf (step (loaded [0x47#8, 0x01#8]))).map (fun t => t.rs) = some .errored := by decide

theorem witness_ErrorsAreFinal : (raise (.unknownOpcode .empty 0) State.reset).rs = .errored ∧
    State.reset.rs = .running ∧ State.reset.err = none ∧
    core.run 0 (raise (.unknownOpcode .empty 0) State.reset) = .next (raise (.unknownOpcode .empty 0) State.reset) ∧
    core.run 0 State.reset = .next State.reset ∧ 0 < 1 ∧
    core.run 1 State.reset = .next (raise (.unknownOpcode .empty 0) State.reset) ∧
    (raise (.unknownOpcode .empty 0) State.reset).err.isSome = true :=
  ⟨rfl, rfl, rfl, rfl, rfl, by decide, rfl, rfl⟩

theorem witness_RegisterFileUse :
    (nextOf (step (loaded [0x82#8, 7#8, 0xFF#8]))).map (fun t => t.regs[7]) = some (.byte 0xFF#8) ∧
    (nextOf (exec (.prn (.byte 3#8)) (withReg State.reset 3 1#8))).isSome = true ∧
    (withReg (withReg State.reset 3 1#8) 0 9#8).regs[3] = (withReg State.reset 3 1#8).regs[3] ∧
    load [] = .ok State.reset := ⟨by decide, by decide, by decide, rfl⟩

theorem witness_OutputGrowsOnlyByPrn :
    (nextOf (step (withReg (loaded [0x47#8, 7#8]) 7 0#8))).map (fun t => t.out) = some [0#8] := by decide

theorem witness_OutOfRangeAddressIs256 : (startAt 254 [0x82#8, 0#8]).PcInRange ∧
    (nextOf (step (startAt 254 [0x82#8, 0#8]))).map (fun t => (t.rs, t.err)) =
      some (.errored, some (.outOfBoundsAddress (.mem 256))) := by decide

theorem witness_EveryStepKeepsTheInvariant : (State.reset.mem.wf = true ∧ State.reset.PcInRange ∧
    State.reset.StatusConsistent ∧ State.reset.HaltedAtHlt) ∧ (nextOf (step State.reset)).isSome = true := by decide

theorem witness_LoadMeetsTheInvariant : (load [0x82#8, 0x00#8, 0x2A#8]).isOk = true := by decide

theorem witness_StepReadsOnlyItsOwnCells : fetch (startAt 255 [0x01#8]) = .ok .hlt ∧
    (∀ k : Nat, k < Instr.hlt.length → memGet [(0, 0xFF#8), (255, 0x01#8)] (255 + k) =
      memGet (startAt 255 [0x01#8]).mem (255 + k)) ∧
    memGet [(0, 0xFF#8), (255, 0x01#8)] 0 ≠ memGet (startAt 255 [0x01#8]).mem 0 :=
  ⟨rfl, fun k hk => by
    have : k = 0 := by simp [Instr.length, Instr.opcode, Opcode.nops] at hk; exact hk
    subst this
    decide, by decide⟩

theorem witness_MemReadContract : 255 < 256 ∧ 255 ≤ 255 := by decide

theorem witness_MemWriteContract : 255 < 256 ∧ 255 ≤ 255 ∧ (nextOf (step State.reset)).isSome = true := by decide

/-- V80 and V82: the shortest and the longest image. -/
theorem witness_LoadBuildsTheResetState :
    ([] : List Byte).length ≤ 256 ∧ (List.replicate 256 0x01#8).length ≤ 256 := by
  rw [List.length_replicate]
  decide

/-- V81. -/
theorem witness_OverlongImageGivesNoInstance : 256 < (List.replicate 257 0x01#8).length := by
  rw [List.length_replicate]
  decide

theorem witness_ExecutionStartsAtAddressZero :
    (load [0x01#8, 0xFF#8]).isOk = true ∧ [0x01#8, 0xFF#8] = 0x01#8 :: [0xFF#8] := by decide

theorem witness_PlacedInstructionRunsNext : (startAt 253 []).pc ≤ 253 ∧
    decodeTableWord 24 0x2A0082 = some (.ldi (.byte 0#8) (.byte 42#8)) := by decide

theorem witness_MemoryIsConstantDuringARun :
    core.run 1 (loaded [0x01#8]) = .next (halt (loaded [0x01#8])) := rfl

theorem witness_PcIsTheSumOfTheLengths : nextOf (core.run 1 (loaded [0x82#8, 0#8, 6#8])) =
      some { withReg (loaded [0x82#8, 0#8, 6#8]) 0 6#8 with pc := 3 } ∧
    { withReg (loaded [0x82#8, 0#8, 6#8]) 0 6#8 with pc := 3 }.rs = .running := by decide

theorem witness_OutputCountsCompletedPrn :
    (nextOf (core.run 1 (withReg (loaded [0x47#8, 0#8]) 0 6#8))).map (fun t => t.out.length) = some 1 := by decide

theorem witness_InstructionsRunInAscendingOrder :
    (nextOf (core.run 1 (startAt 253 [0x82#8, 0#8, 6#8]))).map (fun t => (t.rs, t.pc)) = some (.running, 256) := by decide

theorem witness_EveryRunEnds : State.reset.rs = .running := by decide

theorem witness_RunReportsAnOutcome : State.reset.rs = .running ∧ State.reset.err = none := by decide

theorem witness_LoopRunsTheStoredInstructionsInOrder :
    (startAt 253 [0x47#8, 9#8, 0x01#8]).holdsAt 253 ([Instr.prn (.byte 9#8), .hlt].flatMap encode) :=
  ⟨by decide, by decide, by decide, by decide, by decide, by decide, trivial⟩

theorem witness_BootReadyCodeHaltsCleanly : (withReg (startAt 253 [0x47#8, 7#8, 0x01#8]) 7 0#8).rs = .running ∧
    (∀ r ∈ [(7 : RegIndex)], ∃ v : Byte, (withReg (startAt 253 [0x47#8, 7#8, 0x01#8]) 7 0#8).regs[r] = .byte v) ∧
    bootReady [7] [.prn (.byte 7#8), .hlt] = true ∧
    (withReg (startAt 253 [0x47#8, 7#8, 0x01#8]) 7 0#8).holdsAt 253 ([Instr.prn (.byte 7#8), .hlt].flatMap encode) :=
  ⟨by decide, fun r hr => ⟨0#8, by simp only [List.mem_singleton] at hr; subst hr; decide⟩, by decide,
    by decide, by decide, by decide, by decide, by decide, by decide, trivial⟩

end Sys2Proof.Tests
end

section
/-! PROOFS. The state's rules of spec/10_state.md: how `pc`, RS and the register file change in a step. -/

namespace Sys2Proof.Machine

/-! ### What a successful fetch says of memory, cell by cell -/

/-- The opcode cell of a fetched instruction exists and holds its row's pattern (rules R56, R72). -/
theorem fetch_opcodeCell {s : State} {i : Instr} (h : fetch s = .ok i) :
    s.pc < Config.memSize ∧ memGet s.mem s.pc = .byte i.opcode.pattern := by
  cases i <;> exact fetch_ok h 0 (Nat.succ_pos _)

/-- The first operand cell of a fetched instruction that has one (rule R74). -/
theorem fetch_firstOperandCell {s : State} {i : Instr} {c : Cell} (h : fetch s = .ok i)
    (hc : (encode i)[1]? = some c) : memGet s.mem (s.pc + 1) = c := by
  obtain ⟨hlen, rfl⟩ := List.getElem?_eq_some_iff.mp hc
  exact (fetch_ok h 1 hlen).2

/-! ### The program counter (rule R16) -/

/-- Settles O29: the fetched opcode cell names the row, and each row's completion moves `pc` by its own length. -/
theorem pcAdvancesByTheLength : Obligations.PcAdvancesByTheLength := by
  intro s t h
  obtain ⟨hs, ⟨i, hi, hc⟩ | ⟨e, rfl⟩⟩ := step_next h
  · obtain ⟨-, hcell⟩ := fetch_opcodeCell hi
    cases hc with
    | ldi r imm => exact .inr (.inl ⟨hs, hcell, rfl⟩)
    | mul a b x y hx hy => exact .inr (.inr (.inl ⟨hs, hcell, rfl⟩))
    | prn r v hv => exact .inr (.inr (.inr (.inl ⟨hs, hcell, rfl⟩)))
    | hlt => exact .inr (.inr (.inr (.inr ⟨rfl, hcell, rfl⟩)))
  · exact .inl ⟨rfl, rfl⟩

/-! ### The run state (rule R18) -/

/-- A completed instruction keeps RS, or it is HLT. -/
theorem completes_rs {s t : State} {i : Instr} (h : Completes s i t) :
    t.rs = s.rs ∨ (i = .hlt ∧ t = halt s) := by
  cases h with
  | hlt => exact .inr ⟨rfl, rfl⟩
  | _ => exact .inl rfl

/-- Settles O30: a completed step keeps RS or is HLT's, and every other step is an error entry. -/
theorem runStateTransitions : Obligations.RunStateTransitions := by
  refine ⟨rfl, fun s t h => ?_⟩
  obtain ⟨hs, ⟨i, hi, hc⟩ | ⟨e, rfl⟩⟩ := step_next h
  · obtain hrs | ⟨rfl, rfl⟩ := completes_rs hc
    · exact ⟨hs, .inl (hrs.trans hs)⟩
    · obtain ⟨hpc, hcell⟩ := fetch_opcodeCell hi
      exact ⟨hs, .inr (.inl ⟨Nat.le_of_lt_succ hpc, hcell, rfl⟩)⟩
  · exact ⟨hs, .inr (.inr ⟨e, rfl⟩)⟩

/-! ### Writes of the register file (rule R14) -/

/-- A register that a write changes is the one it names. -/
theorem regWrite_changed {s : State} {a r : RegIndex} {v : Cell}
    (h : (regWrite a v s).regs[r] ≠ s.regs[r]) : r = a := by
  by_contra hra
  exact h (Vector.getElem_set_ne a.isLt r.isLt fun hv => hra (Fin.ext hv.symm))

/-- Only a completed LDI or MUL changes a register, the one its first operand names. -/
theorem completes_changed {s t : State} {i : Instr} {r : RegIndex} (h : Completes s i t)
    (hr : t.regs[r] ≠ s.regs[r]) :
    (encode i)[1]? = some (indexCell r) ∧ (i.opcode = .ldi ∨ i.opcode = .mul) := by
  cases h with
  | ldi a imm =>
    cases regWrite_changed hr
    exact ⟨rfl, .inl rfl⟩
  | mul a b x y hx hy =>
    cases regWrite_changed hr
    exact ⟨rfl, .inr rfl⟩
  | prn a v hv => exact absurd rfl hr
  | hlt => exact absurd rfl hr

/-- Load writes memory alone. -/
theorem load_regs {image : List Byte} {s : State} (h : load image = .ok s) : s.regs = State.reset.regs := by
  simp only [load, bind, Except.bind] at h
  split at h
  · exact nomatch h
  · injection h with h
    exact h ▸ rfl

/-! ### Reads of the register file (rule R14)

A handler is run from `s` and from `s` with the register file `regs`. The two results are compared part by part, in the
order in which the handler is written. -/

/-- `u`, made from the register file `before`, is `t` but for the registers, and what was written to them is what `t`
holds there. -/
def SameWrites (before : Vector Cell Config.numRegs) (t u : State) : Prop :=
  u = { t with regs := u.regs } ∧ ∀ r : RegIndex, u.regs[r] ≠ before[r] → u.regs[r] = t.regs[r]

/-- Two handlers' results: the same error, or states with the same writes. -/
inductive SameResult (before : Vector Cell Config.numRegs) : Except Error State → Except Error State → Prop where
  | ok {t u : State} (h : SameWrites before t u) : SameResult before (.ok t) (.ok u)
  | error (e : Error) : SameResult before (.error e) (.error e)

section
variable {regs : Vector Cell Config.numRegs} {s : State}

theorem sameWrites_withRegs : SameWrites regs s { s with regs := regs } :=
  ⟨rfl, fun _ h => absurd rfl h⟩

/-- The advance moves `pc` alone, so it keeps the relation. -/
theorem SameWrites.advance {t u : State} (h : SameWrites regs t u) (op : Opcode) :
    SameWrites regs (advance op t) (advance op u) :=
  ⟨congrArg (Machine.advance op) h.1, h.2⟩

theorem sameWrites_regWrite (a : RegIndex) (v : Cell) :
    SameWrites regs (regWrite a v s) (regWrite a v { s with regs := regs }) := by
  refine ⟨rfl, fun r hr => ?_⟩
  cases regWrite_changed hr
  simp

/-- A check that both handlers make alike: it fails in both, or both go on with its value. -/
theorem SameResult.bind {α : Type} {x : Except Error α} {f g : α → Except Error State}
    (h : ∀ a, x = .ok a → SameResult regs (f a) (g a)) : SameResult regs (x >>= f) (x >>= g) := by
  cases x with
  | ok a => exact h a rfl
  | error e => exact .error e

/-- The advance that ends a handler. -/
theorem SameResult.advance {x y : Except Error State} (h : SameResult regs x y) (op : Opcode) :
    SameResult regs (do let t ← x; .ok (Machine.advance op t)) (do let u ← y; .ok (Machine.advance op u)) := by
  cases h with
  | ok h => exact .ok (h.advance op)
  | error e => exact .error e

/-- A source register reads alike in two register files that agree on it. -/
theorem sourceByte_withRegs {r : RegIndex} (h : regs[r] = s.regs[r]) :
    sourceByte { s with regs := regs } r = sourceByte s r := by
  simp only [sourceByte, regRead, h]

theorem aluApply_mul_sameResult {ra rb : Cell} (ha : ∀ r, ra = indexCell r → regs[r] = s.regs[r])
    (hb : ∀ r, rb = indexCell r → regs[r] = s.regs[r]) :
    SameResult regs (aluApply .mul ra rb s) (aluApply .mul ra rb { s with regs := regs }) := by
  refine SameResult.bind fun a hra => SameResult.bind fun b hrb => ?_
  rw [sourceByte_withRegs (ha a (regCheck_ok hra)), sourceByte_withRegs (hb b (regCheck_ok hrb))]
  exact SameResult.bind fun x _ => SameResult.bind fun y _ => .ok (sameWrites_regWrite a _)

/-- Handlers with the same result end their steps alike (rule R126 voids an errored step's assignments). -/
theorem settle_sameResult {t : State} {x y : Except Error State} (hxy : SameResult regs x y)
    (h : settle s x = .next t) : ∃ u, settle { s with regs := regs } y = .next u ∧ SameWrites regs t u := by
  obtain ⟨hs, hx⟩ := settle_next h
  cases hxy with
  | @ok t' u hw =>
    obtain hx | ⟨e, hx, -⟩ := hx
    · cases hx
      exact ⟨u, settle_ok hs u, hw⟩
    · exact nomatch hx
  | error e =>
    obtain hx | ⟨e', hx, rfl⟩ := hx
    · exact nomatch hx
    · cases hx
      exact ⟨_, settle_error (s := { s with regs := regs }) hs e, sameWrites_withRegs (s := raise e s)⟩

/-- Two register files that agree on the registers an instruction reads make no difference to what it does: LDI and HLT
read none, PRN and MUL the ones they name. -/
theorem exec_sameWrites {i : Instr} {t : State}
    (hreads : ∀ r : RegIndex,
      (i = .prn (indexCell r) ∨ ∃ c, i = .mul (indexCell r) c ∨ i = .mul c (indexCell r)) → regs[r] = s.regs[r])
    (h : exec i s = .next t) :
    ∃ u, exec i { s with regs := regs } = .next u ∧ SameWrites regs t u := by
  cases i with
  | ldi ra imm =>
    refine settle_sameResult (SameResult.bind fun r _ => .ok ?_) h
    exact (sameWrites_regWrite r imm).advance .ldi
  | prn ra =>
    refine settle_sameResult (SameResult.bind fun r hr => ?_) h
    rw [sourceByte_withRegs (hreads r (.inl (congrArg Instr.prn (regCheck_ok hr))))]
    exact SameResult.bind fun v _ => .ok (sameWrites_withRegs (s := advance .prn (emit v s)))
  | mul ra rb =>
    refine settle_sameResult ((aluApply_mul_sameResult ?_ ?_).advance .mul) h
    · exact fun r hr => hreads r (.inr ⟨rb, .inl (congrArg (Instr.mul · rb) hr)⟩)
    · exact fun r hr => hreads r (.inr ⟨ra, .inr (congrArg (Instr.mul ra) hr)⟩)
  | hlt => exact settle_sameResult (.ok (sameWrites_withRegs (s := halt s))) h

end

/-- Settles O33: a step that changes a register is a completed LDI or MUL of that register, and register files that agree
on the registers an instruction reads give the same result. -/
theorem registerFileUse : Obligations.RegisterFileUse := by
  refine ⟨fun s t r h hr => ?_, fun i s t other hreads h => ?_, fun image s h => load_regs h⟩
  · obtain ⟨-, ⟨i, hi, hc⟩ | ⟨e, rfl⟩⟩ := step_next h
    · obtain ⟨hoperand, hop⟩ := completes_changed hc hr
      obtain ⟨-, hcell⟩ := fetch_opcodeCell hi
      refine ⟨fetch_firstOperandCell hi hoperand, hop.imp ?_ ?_⟩
      · exact fun ho => by rw [hcell, ho]; rfl
      · exact fun ho => by rw [hcell, ho]; rfl
    · exact absurd rfl hr
  · exact exec_sameWrites hreads h

end Sys2Proof.Machine
end

section
/-! PROOFS. The memory contract of spec/20_memory.md: what a read answers, what a write changes, and that no step writes. -/

namespace Sys2Proof.Machine

/-! ### The read (rules R30, R32) -/

/-- Settles O40: 255 is the last address of the memory, and the checked read answers on each side of that bound. -/
theorem memReadContract : Obligations.MemReadContract := by
  intro m a
  refine ⟨fun h => ?_, fun h => ?_⟩
  · exact memRead_outside (Nat.succ_le_of_lt h)
  · exact memRead_inside (Nat.lt_succ_of_le h)

/-! ### The write (rules R31, R38) -/

/-- No completed instruction writes memory (rule R38). -/
theorem completes_mem {s t : State} {i : Instr} (h : Completes s i t) : t.mem = s.mem := by
  cases h with
  | ldi r imm => rw [advance_mem, regWrite_mem]
  | prn r v hv => rw [advance_mem, emit_mem]
  | mul a b x y hx hy => rw [advance_mem, regWrite_mem]
  | hlt => exact halt_mem s

/-- No step writes memory, errored steps included (rules R38, R126). -/
theorem step_mem {s t : State} (h : step s = .next t) : t.mem = s.mem := by
  obtain ⟨-, ⟨i, -, hc⟩ | ⟨e, rfl⟩⟩ := step_next h
  · exact completes_mem hc
  · exact raise_mem s e

/-- Settles O41: a write inside the memory is `memPut`, which is read back at its own address alone, and a step keeps
memory. -/
theorem memWriteContract : Obligations.MemWriteContract := by
  refine ⟨fun m a v h => ?_, fun m a v h => ?_, fun s t h => step_mem h⟩
  · exact memWrite_outside (Nat.succ_le_of_lt h)
  · exact ⟨memPut m a v, memWrite_inside (Nat.lt_succ_of_le h), memGet_memPut_same m a v,
      fun b hb => memGet_memPut_other m v hb⟩

end Sys2Proof.Machine
end

section
/-! PROOFS. The opcode cell's rules of spec/30_encoding.md: it selects the row, gives the length, and raises when it has
no row. -/

namespace Sys2Proof

/-! ### The dispatch table, read both ways (rule R56) -/

/-- The key is the whole cell, and no two rows share a pattern. -/
theorem dispatch_eq_some_iff {c : Cell} {op : Opcode} : dispatch c = some op ↔ c = .byte op.pattern := by
  refine ⟨dispatch_some, ?_⟩
  rintro rfl
  exact dispatch_pattern op

theorem dispatch_eq_none_iff {c : Cell} : dispatch c = none ↔ ∀ op : Opcode, c ≠ .byte op.pattern := by
  simp only [Option.eq_none_iff_forall_ne_some, ne_eq, dispatch_eq_some_iff]

/-- The four patterns are all there are. -/
theorem dispatch_eq_none_of_ne {c : Cell} (hldi : c ≠ .byte 0x82#8) (hmul : c ≠ .byte 0xA2#8)
    (hprn : c ≠ .byte 0x47#8) (hhlt : c ≠ .byte 0x01#8) : dispatch c = none := by
  refine dispatch_eq_none_iff.mpr fun op => ?_
  cases op with
  | ldi => exact hldi
  | prn => exact hprn
  | mul => exact hmul
  | hlt => exact hhlt

/-- A byte outside the table's four selects no row. -/
theorem dispatch_of_undefined {b : Byte} (hb : b ∉ [0x01#8, 0x47#8, 0x82#8, 0xA2#8]) : dispatch (.byte b) = none := by
  simp only [List.mem_cons, List.not_mem_nil, or_false, not_or] at hb
  obtain ⟨hhlt, hprn, hldi, hmul⟩ := hb
  have hcell {x : Byte} (h : b ≠ x) : Cell.byte b ≠ .byte x := fun he => h (Cell.byte.inj he)
  exact dispatch_eq_none_of_ne (hcell hldi) (hcell hmul) (hcell hprn) (hcell hhlt)

/-! ### What the decoder answers -/

/-- An opcode cell without a row is the decoder's answer at once: no other cell is read (rules R57, R58). -/
theorem decodeWith_of_dispatch_none {ε : Type} {read : Nat → Except ε Cell} {unknown : Cell → ε} {ir : Cell}
    (hread : read 0 = .ok ir) (hd : dispatch ir = none) : decodeWith read unknown = .error (unknown ir) := by
  simp only [decodeWith, bind, Except.bind, hread, hd]

theorem decode_of_dispatch_none {c : Cell} (hd : dispatch c = none) (rest : List Cell) :
    decode (c :: rest) = .error (.unknownOpcode c) := by
  have hw : decodeWith (cellAt (c :: rest)) .unknownOpcode = .error (.unknownOpcode c) :=
    decodeWith_of_dispatch_none rfl hd
  simp only [decode, hw]

theorem cellAt_eq_ok_iff {cells : List Cell} {k : Nat} {c : Cell} : cellAt cells k = .ok c ↔ cells[k]? = some c := by
  cases h : cells[k]? with
  | some d => simp only [cellAt, h, Except.ok.injEq, Option.some.injEq]
  | none => simp only [cellAt, h, reduceCtorEq]

/-- What the decoder takes off a list is the encoding of the instruction it answers. -/
theorem decode_ok {cells tail : List Cell} {i : Instr} (h : decode cells = .ok (i, tail)) :
    cells = encode i ++ tail := by
  unfold decode at h
  split at h
  · rename_i j hw
    cases h
    have hprefix : encode i <+: cells :=
      List.prefix_iff_getElem?.mpr fun k hk => cellAt_eq_ok_iff.mp (decodeWith_ok hw k hk)
    rw [← Machine.encode_length]
    exact (List.prefix_iff_eq_append.mp hprefix).symm
  · exact nomatch h

/-- The first cell of an encoding is its row's pattern, and the others are as many as the row counts. -/
theorem encode_eq_cons (i : Instr) :
    ∃ operands, encode i = .byte i.opcode.pattern :: operands ∧ operands.length = i.opcode.nops := by
  cases i <;> exact ⟨_, rfl, rfl⟩

/-- The first cell of a decoded list names the row of the instruction, and the operand cells stand between it and the
cells that are left. -/
theorem decode_cons_ok {c : Cell} {rest tail : List Cell} {i : Instr} (h : decode (c :: rest) = .ok (i, tail)) :
    c = .byte i.opcode.pattern ∧ ∃ operands, rest = operands ++ tail ∧ operands.length = i.opcode.nops := by
  obtain ⟨operands, hencode, hlen⟩ := encode_eq_cons i
  have hcells := decode_ok h
  rw [hencode] at hcells
  obtain ⟨hc, hrest⟩ := List.cons.inj hcells
  exact ⟨hc, operands, hrest, hlen⟩

/-- Settles O2: the table's key is the whole cell, and a decoded list begins with its instruction's pattern. -/
theorem opcodeCellSelectsTheRow : Obligations.OpcodeCellSelectsTheRow := by
  refine ⟨fun c op => ?_, ⟨rfl, rfl, rfl, rfl⟩, fun c rest tail i h => ?_, fun c rest hd => ?_⟩
  · rw [dispatch_eq_some_iff]
    cases op <;> simp [Opcode.pattern]
  · exact dispatch_eq_some_iff.mpr (decode_cons_ok h).1
  · exact decode_of_dispatch_none hd rest

/-- Settles O3: the first cell names the row, the row counts the operand cells, and without a row nothing decodes. -/
theorem lengthComesFromTheOpcodeAlone : Obligations.LengthComesFromTheOpcodeAlone := by
  refine ⟨fun c rest tail i h => ?_, fun c hldi hmul hprn hhlt rest => ?_⟩
  · obtain ⟨hc, operands, rfl, hlen⟩ := decode_cons_ok h
    have hrest : (operands ++ tail).length = tail.length + i.opcode.nops := by
      rw [List.length_append, hlen, Nat.add_comm]
    cases i with
    | ldi ra imm => exact .inl ⟨hc, rfl, hrest⟩
    | mul ra rb => exact .inr (.inl ⟨hc, rfl, hrest⟩)
    | prn ra => exact .inr (.inr (.inl ⟨hc, rfl, hrest⟩))
    | hlt =>
      cases List.eq_nil_of_length_eq_zero hlen
      exact .inr (.inr (.inr ⟨hc, rfl, rfl⟩))
  · exact decode_of_dispatch_none (dispatch_eq_none_of_ne hldi hmul hprn hhlt) rest

/-! ### Counting the bytes outside a table (rule R57) -/

/-- Below 256 each byte is the low 8 bits of exactly one number, its own value. -/
theorem listedNumbers_perm {l : List Byte} (hl : l.Nodup) :
    ((List.range 256).filter fun n => BitVec.ofNat 8 n ∈ l).Perm (l.map BitVec.toNat) := by
  refine (List.perm_ext_iff_of_nodup (List.nodup_range.filter _) (hl.map BitVec.toNat_injective)).mpr fun n => ?_
  simp only [List.mem_filter, List.mem_range, List.mem_map, decide_eq_true_eq]
  constructor
  · rintro ⟨hn, hmem⟩
    exact ⟨_, hmem, Nat.mod_eq_of_lt hn⟩
  · rintro ⟨b, hmem, rfl⟩
    exact ⟨b.isLt, by rwa [BitVec.ofNat_toNat, BitVec.setWidth_eq]⟩

/-- A table of distinct bytes leaves out all the others of the 256. -/
theorem length_unlistedNumbers {l : List Byte} (hl : l.Nodup) :
    ((List.range 256).filter fun n => BitVec.ofNat 8 n ∉ l).length = 256 - l.length := by
  have hsplit := List.length_eq_length_filter_add (l := List.range 256) fun n => decide (BitVec.ofNat 8 n ∈ l)
  have hlisted := (listedNumbers_perm hl).length_eq
  simp only [List.length_range, List.length_map, ← decide_not] at hsplit hlisted
  omega

end Sys2Proof

namespace Sys2Proof.Machine

/-! ### A step at a cell without a row (rules R57, R58) -/

/-- Only the opcode cell itself has to exist, so this holds at address 255 too. -/
theorem fetch_of_dispatch_none {s : State} (hpc : s.pc < Config.memSize) (hd : dispatch (memGet s.mem s.pc) = none) :
    fetch s = .error (.unknownOpcode (memGet s.mem s.pc) s.pc) :=
  decodeWith_of_dispatch_none (memRead_inside hpc) hd

theorem step_of_dispatch_none {s : State} (hs : s.rs = .running) (hpc : s.pc < Config.memSize)
    (hd : dispatch (memGet s.mem s.pc) = none) :
    step s = .next (raise (.unknownOpcode (memGet s.mem s.pc) s.pc) s) :=
  step_fetch_error hs (fetch_of_dispatch_none hpc hd)

/-- Settles O9: the byte has no row, so the fetch raises before any operand cell is read; the table's four bytes are
distinct, which leaves 252. -/
theorem undefinedOpcodeRaises : Obligations.UndefinedOpcodeRaises := by
  refine ⟨fun s b hs hpc hcell hb => ?_, length_unlistedNumbers (by decide)⟩
  have hstep := step_of_dispatch_none hs (Nat.lt_succ_of_le hpc) (hcell ▸ dispatch_of_undefined hb)
  rwa [hcell] at hstep

end Sys2Proof.Machine
end

section
/-! PROOFS. The execution loop of spec/40_execution_loop.md: when a step is defined. -/

namespace Sys2Proof.Machine

/-- Settles O6: a step that answers a next state ran from RUNNING, and from RUNNING both a completion and an error entry
answer one (rules R70, R131). -/
theorem stepIsDefinedExactlyWhileRunning : Obligations.StepIsDefinedExactlyWhileRunning := by
  intro s
  constructor
  · rintro ⟨t, ht⟩
    exact (step_next ht).1
  · exact step_of_running

end Sys2Proof.Machine
end

section
/-! PROOFS. LDI of spec/41_ldi.md: what it does to the state, its errors in order, and that a register's first value is
LDI's. -/

namespace Sys2Proof.Machine

/-! ### An instruction that does not fit in memory (rules R72, R74) -/

/-- The row alone decides how many cells are read: where they do not all exist, the first address above 255 is the one
recorded. -/
theorem fetch_beyondMemory {s : State} {op : Opcode} (hpc : s.pc < Config.memSize)
    (hcell : memGet s.mem s.pc = .byte op.pattern) (hlen : Config.memSize < s.pc + 1 + op.nops) :
    fetch s = .error (.outOfBoundsAddress (.mem Config.memSize)) := by
  have hd : dispatch (memGet s.mem s.pc) = some op := dispatch_eq_some_iff.mpr hcell
  cases hf : fetch s with
  | ok i =>
    have hop : op = i.opcode := Option.some.inj (hd.symm.trans (dispatch_eq_some_iff.mpr (fetch_opcodeCell hf).2))
    have hlast := (fetch_ok hf i.opcode.nops (by rw [encode_length, Instr.length]; omega)).1
    rw [hop] at hlen
    omega
  | error e =>
    obtain ⟨hout, -⟩ | ⟨-, ⟨hnone, -⟩ | ⟨op', k, -, -, -, rfl⟩⟩ := fetch_error hf
    · omega
    · exact nomatch hd.symm.trans hnone
    · rfl

theorem step_beyondMemory {s : State} {op : Opcode} (hs : s.rs = .running) (hpc : s.pc < Config.memSize)
    (hcell : memGet s.mem s.pc = .byte op.pattern) (hlen : Config.memSize < s.pc + 1 + op.nops) :
    step s = .next (raise (.outOfBoundsAddress (.mem Config.memSize)) s) :=
  step_fetch_error hs (fetch_beyondMemory hpc hcell hlen)

/-! ### The index check of a byte (rule R39) -/

theorem regCheck_byte_inside {b : Byte} (h : b.toNat < Config.numRegs) : regCheck (.byte b) = .ok ⟨b.toNat, h⟩ :=
  dif_pos h

theorem regCheck_byte_outside {b : Byte} (h : ¬ b.toNat < Config.numRegs) :
    regCheck (.byte b) = .error (.outOfBoundsAddress (.reg (.byte b))) :=
  dif_neg h

/-! ### LDI's fetch and meaning (rule R90) -/

/-- Below address 254 all three cells of LDI exist, and any cells do as its operands. -/
theorem fetch_ldi {s : State} (hpc : s.pc + 2 < Config.memSize)
    (hcell : memGet s.mem s.pc = .byte Opcode.ldi.pattern) :
    fetch s = .ok (.ldi (memGet s.mem (s.pc + 1)) (memGet s.mem (s.pc + 2))) := by
  refine fetch_of_encoded _ fun k hk => ?_
  match k, hk with
  | 0, _ => exact ⟨by omega, hcell⟩
  | 1, _ => exact ⟨by omega, rfl⟩
  | 2, _ => exact ⟨hpc, rfl⟩

theorem exec_ldi_of_regCheck_ok {s : State} {ra : Cell} {r : RegIndex} (hs : s.rs = .running)
    (hr : regCheck ra = .ok r) (imm : Cell) : exec (.ldi ra imm) s = .next (advance .ldi (regWrite r imm s)) := by
  simp only [exec, execLdi, bind, Except.bind, hr, settle_ok hs, immediate]

theorem exec_ldi_of_regCheck_error {s : State} {ra : Cell} {e : Error} (hs : s.rs = .running)
    (hr : regCheck ra = .error e) (imm : Cell) : exec (.ldi ra imm) s = .next (raise e s) := by
  simp only [exec, execLdi, bind, Except.bind, hr, settle_error hs]

/-! ### The first value of a register -/

/-- MUL reads its destination before it writes it, so a register that was EMPTY is only ever filled by LDI. -/
theorem completes_fills_empty {s t : State} {i : Instr} {r : RegIndex} (h : Completes s i t)
    (hempty : s.regs[r] = .empty) (hfull : t.regs[r] ≠ .empty) : i.opcode = .ldi := by
  cases h with
  | ldi a imm => rfl
  | mul a b x y hx hy =>
    cases regWrite_changed (hempty ▸ hfull)
    exact nomatch hempty.symm.trans hx
  | prn a v hv => exact absurd hempty hfull
  | hlt => exact absurd hempty hfull

/-- Settles O13: the operand cells have to exist, then the index has to be valid, then LDI completes; and the other
instruction that writes a register needs a value in it first. -/
theorem ldiStep : Obligations.LdiStep := by
  refine ⟨fun s hs hpc hcell => ?_, fun s t r h hempty hfull => ?_⟩
  · have hcut (h254 : 254 ≤ s.pc) : step s = .next (raise (.outOfBoundsAddress (.mem 256)) s) :=
      step_beyondMemory (op := .ldi) hs (Nat.lt_succ_of_le hpc) hcell (show 256 < s.pc + 1 + 2 by omega)
    split
    · next h255 =>
      rw [show s.pc + 1 = 256 by omega]
      exact hcut (by omega)
    split
    · next h254 => exact hcut (Nat.le_of_eq h254.symm)
    rw [step_eq_exec (fetch_ldi (show s.pc + 2 < 256 by omega) hcell)]
    split
    · next hra =>
      rw [hra]
      exact exec_ldi_of_regCheck_error hs rfl _
    · next b hra =>
      rw [hra]
      split
      · next hb => exact exec_ldi_of_regCheck_ok hs (regCheck_byte_inside hb) _
      · next hb => exact exec_ldi_of_regCheck_error hs (regCheck_byte_outside hb) _
  · obtain ⟨-, ⟨i, hi, hc⟩ | ⟨e, rfl⟩⟩ := step_next h
    · obtain ⟨hpc, hcell⟩ := fetch_opcodeCell hi
      rw [completes_fills_empty hc hempty hfull] at hcell
      exact ⟨Nat.le_of_lt_succ hpc, hcell⟩
    · exact absurd hempty hfull

end Sys2Proof.Machine
end

section
/-! PROOFS. PRN of spec/42_prn.md: the byte it appends to OUT, and its errors in order. -/

namespace Sys2Proof.Machine

/-! ### The read of a source register (rules R97, R105) -/

theorem sourceByte_of_byte {s : State} {r : RegIndex} {v : Byte} (h : regRead s r = .byte v) :
    sourceByte s r = .ok v := by
  simp only [sourceByte, h]

theorem sourceByte_of_empty {s : State} {r : RegIndex} (h : regRead s r = .empty) :
    sourceByte s r = .error (.uninitializedOperand r) := by
  simp only [sourceByte, h]

/-! ### PRN's fetch and meaning (rules R95, R98) -/

/-- Below address 255 both cells of PRN exist, and any cell does as its operand. -/
theorem fetch_prn {s : State} (hpc : s.pc + 1 < Config.memSize)
    (hcell : memGet s.mem s.pc = .byte Opcode.prn.pattern) :
    fetch s = .ok (.prn (memGet s.mem (s.pc + 1))) := by
  refine fetch_of_encoded _ fun k hk => ?_
  match k, hk with
  | 0, _ => exact ⟨Nat.lt_of_succ_lt hpc, hcell⟩
  | 1, _ => exact ⟨hpc, rfl⟩

theorem exec_prn_of_regCheck_error {s : State} {ra : Cell} {e : Error} (hs : s.rs = .running)
    (hr : regCheck ra = .error e) : exec (.prn ra) s = .next (raise e s) := by
  simp only [exec, execPrn, bind, Except.bind, hr, settle_error hs]

theorem exec_prn_of_empty {s : State} {ra : Cell} {r : RegIndex} (hs : s.rs = .running)
    (hr : regCheck ra = .ok r) (hv : regRead s r = .empty) :
    exec (.prn ra) s = .next (raise (.uninitializedOperand r) s) := by
  simp only [exec, execPrn, bind, Except.bind, hr, sourceByte_of_empty hv, settle_error hs]

theorem exec_prn_of_byte {s : State} {ra : Cell} {r : RegIndex} {v : Byte} (hs : s.rs = .running)
    (hr : regCheck ra = .ok r) (hv : regRead s r = .byte v) :
    exec (.prn ra) s = .next (advance .prn (emit v s)) := by
  simp only [exec, execPrn, bind, Except.bind, hr, sourceByte_of_byte hv, settle_ok hs]

/-- Settles O16: the index passes the check and the register holds a byte, so nothing is left that could raise. -/
theorem prnCompletes : Obligations.PrnCompletes := by
  intro s r v hr hs hv
  exact exec_prn_of_byte hs (regCheck_byte_inside hr) hv

/-- Settles O17: the operand cell has to exist, then the index has to be valid, then its register has to hold a byte;
each check that fails takes its error, and past them all PRN completes. -/
theorem prnStep : Obligations.PrnStep := by
  intro s hs hpc hcell
  split
  · next h255 =>
    exact step_beyondMemory (op := .prn) hs (Nat.lt_succ_of_le hpc) hcell (show 256 < s.pc + 1 + 1 by omega)
  rw [step_eq_exec (fetch_prn (show s.pc + 1 < 256 by omega) hcell)]
  split
  · next hra =>
    rw [hra]
    exact exec_prn_of_regCheck_error hs rfl
  next r hra =>
  rw [hra]
  split
  · next hr =>
    have hindex := regCheck_byte_inside hr
    split
    · next hempty => exact exec_prn_of_empty hs hindex hempty
    · next v hv => exact prnCompletes s r v hr hs hv
  · next hr => exact exec_prn_of_regCheck_error hs (regCheck_byte_outside hr)

end Sys2Proof.Machine
end

section
/-! PROOFS. The ALU and MUL of spec/43_alu_mul.md: the checks in order, the product written in place, and no other
operation. -/

namespace Sys2Proof.Machine

/-! ### The ALU's multiply, one lemma per check it can fail, in order (rules R100, R105) -/

theorem aluApply_mul_of_regCheck_fst_error {s : State} {ra rb : Cell} {e : Error} (ha : regCheck ra = .error e) :
    aluApply .mul ra rb s = .error e := by
  simp only [aluApply, bind, Except.bind, ha]

theorem aluApply_mul_of_regCheck_snd_error {s : State} {ra rb : Cell} {a : RegIndex} {e : Error}
    (ha : regCheck ra = .ok a) (hb : regCheck rb = .error e) : aluApply .mul ra rb s = .error e := by
  simp only [aluApply, bind, Except.bind, ha, hb]

section
variable {s : State} {ra rb : Cell} {a b : RegIndex} (ha : regCheck ra = .ok a) (hb : regCheck rb = .ok b)
include ha hb

theorem aluApply_mul_of_fst_empty (hx : regRead s a = .empty) :
    aluApply .mul ra rb s = .error (.uninitializedOperand a) := by
  simp only [aluApply, bind, Except.bind, ha, hb, sourceByte_of_empty hx]

theorem aluApply_mul_of_snd_empty {x : Byte} (hx : regRead s a = .byte x) (hy : regRead s b = .empty) :
    aluApply .mul ra rb s = .error (.uninitializedOperand b) := by
  simp only [aluApply, bind, Except.bind, ha, hb, sourceByte_of_byte hx, sourceByte_of_empty hy]

theorem aluApply_mul_of_bytes {x y : Byte} (hx : regRead s a = .byte x) (hy : regRead s b = .byte y) :
    aluApply .mul ra rb s = .ok (regWrite a (.byte (mulLow x y)) s) := by
  simp only [aluApply, bind, Except.bind, ha, hb, sourceByte_of_byte hx, sourceByte_of_byte hy]

end

/-- The operation is checked before the operands are looked at (rule R101). -/
theorem aluApply_of_ne_mul {op : AluOp} (hop : op ≠ .mul) (ra rb : Cell) (s : State) :
    aluApply op ra rb s = .error (.unsupportedALUOperation op) := by
  cases op with
  | mul => exact absurd rfl hop
  | add => rfl
  | other k => rfl

/-- Settles O19: two valid indices of registers that hold bytes pass all of MUL's checks, and every other operation fails
the check of the operation itself. -/
theorem aluSupportsOnlyMultiply : Obligations.AluSupportsOnlyMultiply := by
  refine ⟨fun s a b x y ha hb hx hy => ?_, fun op ra rb s hop => aluApply_of_ne_mul hop ra rb s⟩
  exact aluApply_mul_of_bytes (regCheck_byte_inside ha) (regCheck_byte_inside hb) hx hy

/-! ### MUL's fetch and meaning (rule R102) -/

/-- Below address 254 all three cells of MUL exist, and any cells do as its operands. -/
theorem fetch_mul {s : State} (hpc : s.pc + 2 < Config.memSize)
    (hcell : memGet s.mem s.pc = .byte Opcode.mul.pattern) :
    fetch s = .ok (.mul (memGet s.mem (s.pc + 1)) (memGet s.mem (s.pc + 2))) := by
  refine fetch_of_encoded _ fun k hk => ?_
  match k, hk with
  | 0, _ => exact ⟨by omega, hcell⟩
  | 1, _ => exact ⟨by omega, rfl⟩
  | 2, _ => exact ⟨hpc, rfl⟩

theorem exec_mul_of_aluApply_ok {s t : State} {ra rb : Cell} (hs : s.rs = .running)
    (h : aluApply .mul ra rb s = .ok t) : exec (.mul ra rb) s = .next (advance .mul t) := by
  simp only [exec, execMul, bind, Except.bind, h, settle_ok hs]

theorem exec_mul_of_aluApply_error {s : State} {ra rb : Cell} {e : Error} (hs : s.rs = .running)
    (h : aluApply .mul ra rb s = .error e) : exec (.mul ra rb) s = .next (raise e s) := by
  simp only [exec, execMul, bind, Except.bind, h, settle_error hs]

/-- The low 8 bits of the product are the product mod 256 (rule R103). -/
theorem mulLow_eq_ofNat_mod (x y : Byte) : mulLow x y = BitVec.ofNat 8 (x.toNat * y.toNat % 256) :=
  BitVec.eq_of_toNat_eq (Nat.mod_mod _ _).symm

/-- Settles O22: the operand cells have to exist; then come the ALU's checks, index A, index B, register A, register B,
of which the first that fails is the error taken; past them all MUL writes the product to register A and completes. -/
theorem mulStep : Obligations.MulStep := by
  intro s hs hpc hcell
  split
  · next h254 =>
    exact step_beyondMemory (op := .mul) hs (Nat.lt_succ_of_le hpc) hcell (show 256 < s.pc + 1 + 2 by omega)
  rw [step_eq_exec (fetch_mul (show s.pc + 2 < 256 by omega) hcell)]
  split
  · next hra =>
    rw [hra]
    exact exec_mul_of_aluApply_error hs (aluApply_mul_of_regCheck_fst_error rfl)
  next a hra =>
  rw [hra]
  split
  case isFalse ha =>
    exact exec_mul_of_aluApply_error hs (aluApply_mul_of_regCheck_fst_error (regCheck_byte_outside ha))
  next ha =>
  have hindexA := regCheck_byte_inside ha
  split
  · next hrb =>
    rw [hrb]
    exact exec_mul_of_aluApply_error hs (aluApply_mul_of_regCheck_snd_error hindexA rfl)
  next b hrb =>
  rw [hrb]
  split
  case isFalse hb =>
    exact exec_mul_of_aluApply_error hs (aluApply_mul_of_regCheck_snd_error hindexA (regCheck_byte_outside hb))
  next hb =>
  have hindexB := regCheck_byte_inside hb
  split
  · next hx => exact exec_mul_of_aluApply_error hs (aluApply_mul_of_fst_empty hindexA hindexB hx)
  · next x hx hy => exact exec_mul_of_aluApply_error hs (aluApply_mul_of_snd_empty hindexA hindexB hx hy)
  · next x y hx hy =>
    rw [← mulLow_eq_ofNat_mod]
    exact exec_mul_of_aluApply_ok hs (aluApply_mul_of_bytes hindexA hindexB hx hy)

end Sys2Proof.Machine
end

section
/-! PROOFS. HLT of spec/44_hlt.md: one step to HALTED at every address that exists, and the fetch beyond the last one. -/

namespace Sys2Proof.Machine

/-! ### HLT's fetch and meaning (rule R110) -/

/-- HLT is its opcode cell alone, so it is fetched at address 255 too. -/
theorem fetch_hlt {s : State} (hpc : s.pc < Config.memSize)
    (hcell : memGet s.mem s.pc = .byte Opcode.hlt.pattern) : fetch s = .ok .hlt := by
  refine fetch_of_encoded _ fun k hk => ?_
  match k, hk with
  | 0, _ => exact ⟨hpc, hcell⟩

theorem exec_hlt {s : State} (hs : s.rs = .running) : exec .hlt s = .next (halt s) :=
  settle_ok hs (halt s)

theorem step_hlt {s : State} (hs : s.rs = .running) (hpc : s.pc < Config.memSize)
    (hcell : memGet s.mem s.pc = .byte Opcode.hlt.pattern) : step s = .next (halt s) :=
  (step_eq_exec (fetch_hlt hpc hcell)).trans (exec_hlt hs)

/-! ### The fetch of an opcode cell that does not exist (rules R32, R72) -/

theorem decodeWith_of_opcodeCell_error {ε : Type} {read : Nat → Except ε Cell} {unknown : Cell → ε} {e : ε}
    (hread : read 0 = .error e) : decodeWith read unknown = .error e := by
  simp only [decodeWith, bind, Except.bind, hread]

theorem fetch_of_pc_outside {s : State} (hpc : Config.memSize ≤ s.pc) :
    fetch s = .error (.outOfBoundsAddress (.mem s.pc)) :=
  decodeWith_of_opcodeCell_error (memRead_outside hpc)

theorem step_of_pc_outside {s : State} (hs : s.rs = .running) (hpc : Config.memSize ≤ s.pc) :
    step s = .next (raise (.outOfBoundsAddress (.mem s.pc)) s) :=
  step_fetch_error hs (fetch_of_pc_outside hpc)

/-! ### The program that is a lone HLT -/

/-- The reset state of the one-byte image `0x01` (rule R141). -/
def loneHlt : State := { State.reset with mem := [(0, Opcode.hlt.pattern)] }

theorem load_loneHlt : load [Opcode.hlt.pattern] = .ok loneHlt := rfl

/-- Settles O25: the opcode cell is all that HLT reads, so it halts wherever that cell exists, address 0 of the loaded image
included; at 256 the cell does not exist and its read raises. -/
theorem hltStep : Obligations.HltStep := by
  refine ⟨fun s hs hpc hcell => ?_, fun s hs hpc => ?_, loneHlt, load_loneHlt, ?_, rfl, rfl, fun r => ?_⟩
  · exact step_hlt hs (Nat.lt_succ_of_le hpc) hcell
  · have hstep := step_of_pc_outside hs (Nat.le_of_eq hpc.symm)
    rwa [hpc] at hstep
  · exact step_hlt rfl (Nat.zero_lt_succ _) rfl
  · exact Vector.getElem_replicate r.isLt

end Sys2Proof.Machine
end

section
/-! PROOFS. The errors of spec/60_exceptions.md: which of them a step can record, and that the first ends the run. -/

namespace Sys2Proof.Machine

/-! ### What an errored step can record (rules R120, R126) -/

/-- A completed instruction leaves the machine RUNNING or HALTED. -/
theorem completes_rs_ne_errored {s t : State} {i : Instr} (hs : s.rs = .running) (h : Completes s i t) :
    t.rs ≠ .errored := by
  obtain hrs | ⟨-, rfl⟩ := completes_rs h
  · simp [hrs, hs]
  · simp

/-- Everything a step that ends ERRORED can have met: an error of its fetch, or, past the fetch, a register index out of
range or an EMPTY source. -/
theorem step_errored {s t : State} (h : step s = .next t) (ht : t.rs = .errored) :
    ∃ e, t = raise e s ∧
      (fetch s = .error e ∨
        (∃ c, e = .outOfBoundsAddress (.reg c)) ∨ ∃ r, regRead s r = .empty ∧ e = .uninitializedOperand r) := by
  cases hf : fetch s with
  | ok i =>
    rw [step_eq_exec hf] at h
    obtain ⟨hs, hc | ⟨e, rfl, he⟩⟩ := exec_next h
    · exact absurd ht (completes_rs_ne_errored hs hc)
    · exact ⟨e, rfl, .inr he⟩
  | error e =>
    have hs := (step_next h).1
    rw [step_fetch_error hs hf] at h
    injection h with h
    exact ⟨e, h.symm, .inl rfl⟩

/-- A fetch raises for an address or for an opcode; the ALU has no part in it. -/
theorem fetch_ne_unsupportedALUOperation (s : State) (op : AluOp) :
    fetch s ≠ .error (.unsupportedALUOperation op) := by
  intro h
  obtain ⟨-, he⟩ | ⟨-, ⟨-, he⟩ | ⟨-, -, -, -, -, he⟩⟩ := fetch_error h
  all_goals exact nomatch he

/-- Settles O20: the ALU checks its operation first, and no error a step can meet is the one that check raises. -/
theorem unsupportedOperationIsNeverRecorded : Obligations.UnsupportedOperationIsNeverRecorded := by
  refine ⟨fun op ra rb s hop => aluApply_of_ne_mul hop ra rb s, fun s t op h ht herr => ?_⟩
  obtain ⟨e, rfl, he⟩ := step_errored h ht
  cases Option.some.inj herr
  obtain hfetch | ⟨c, hreg⟩ | ⟨r, -, huninit⟩ := he
  · exact fetch_ne_unsupportedALUOperation s op hfetch
  · exact nomatch hreg
  · exact nomatch huninit

/-! ### ERR along a run (rule R129) -/

theorem completes_err {s t : State} {i : Instr} (h : Completes s i t) : t.err = s.err := by
  cases h with
  | ldi r imm => rw [advance_err, regWrite_err]
  | prn r v hv => rw [advance_err, emit_err]
  | mul a b x y hx hy => rw [advance_err, regWrite_err]
  | hlt => exact halt_err s

/-- No step clears ERR. -/
theorem step_keeps_err_isSome {s t : State} (h : step s = .next t) (hs : s.err.isSome = true) :
    t.err.isSome = true := by
  obtain ⟨-, ⟨i, -, hc⟩ | ⟨e, rfl⟩⟩ := step_next h
  · rwa [completes_err hc]
  · rfl

/-- A step from RUNNING starts without an error in ERR, and takes one exactly when it ends ERRORED (rule R28 (d)). -/
theorem step_keeps_statusConsistent {s t : State} (h : step s = .next t) (hs : s.StatusConsistent) :
    t.StatusConsistent := by
  obtain ⟨hrun, ⟨i, -, hc⟩ | ⟨e, rfl⟩⟩ := step_next h
  · have hclean : ¬ s.err.isSome = true := fun herr => nomatch hrun.symm.trans (hs.mp herr)
    rw [State.StatusConsistent, completes_err hc]
    exact iff_of_false hclean (completes_rs_ne_errored hrun hc)
  · exact iff_of_true rfl rfl

/-- What every step keeps, every run keeps. -/
theorem run_keeps {P : State → Prop} (hstep : ∀ {s t : State}, step s = .next t → P s → P t) {k : Nat} {s t : State}
    (h : core.run k s = .next t) (hs : P s) : P t := by
  induction k generalizing s with
  | zero =>
    injection h with h
    exact h ▸ hs
  | succ k ih =>
    obtain ⟨u, hu, hk⟩ := run_succ_next h
    exact ih hk (hstep hu hs)

/-- Only a RUNNING machine has a run of one step or more. -/
theorem running_of_run_succ {k : Nat} {s t : State} (h : core.run (k + 1) s = .next t) : s.rs = .running := by
  obtain ⟨u, hu, -⟩ := run_succ_next h
  exact (step_next hu).1

theorem run_succ_of_errored {s : State} (hs : s.rs = .errored) (k : Nat) (t : State) :
    core.run (k + 1) s ≠ .next t :=
  fun h => nomatch hs.symm.trans (running_of_run_succ h)

/-- A state that a run goes on from is RUNNING. -/
theorem running_of_run_lt {j k : Nat} {s t u : State} (hjk : j < k) (hj : core.run j s = .next u)
    (hk : core.run k s = .next t) : u.rs = .running := by
  obtain ⟨d, rfl⟩ := Nat.exists_eq_add_of_lt hjk
  exact running_of_run_succ ((run_add j (d + 1) hj).symm.trans hk)

theorem err_eq_none_of_running {s : State} (h : s.StatusConsistent) (hs : s.rs = .running) : s.err = none :=
  Option.not_isSome_iff_eq_none.mp fun herr => nomatch hs.symm.trans (h.mp herr)

theorem statusConsistent_of_running {s : State} (hs : s.rs = .running) (herr : s.err = none) :
    s.StatusConsistent :=
  iff_of_false (by simp [herr]) (by simp [hs])

/-- Settles O32: ERR and RS stay consistent along a run, and the run goes on from RUNNING states only. So the states
before its last hold no error, and an error in its last has ended it. -/
theorem errorsAreFinal : Obligations.ErrorsAreFinal := by
  refine ⟨fun s t k hs => run_succ_of_errored hs k t, fun s t k h => run_keeps step_keeps_err_isSome h,
    fun s t k hs herr hk ht => ?_⟩
  have hconsistent {j : Nat} {u : State} (hj : core.run j s = .next u) : u.StatusConsistent :=
    run_keeps step_keeps_statusConsistent hj (statusConsistent_of_running hs herr)
  have herrored : t.rs = .errored := (hconsistent hk).mp ht
  refine ⟨herrored, fun j u hjk hj => ?_, fun n u h => ?_⟩
  · exact err_eq_none_of_running (hconsistent hj) (running_of_run_lt hjk hj hk)
  · exact run_succ_of_errored herrored n u ((run_add k (n + 1) hk).symm.trans h)

end Sys2Proof.Machine
end

section
/-! PROOFS. Load, the construction of an instance (spec/70_reset_and_hazards.md): what it says of the state it gives. -/

namespace Sys2Proof.Machine

/-- Only bytes that fit are written without an error (rules R31, R143). -/
theorem length_le_of_memWriteBytes_ok {bs : List Byte} {m m' : Memory} {a : Nat} (ha : a ≤ Config.memSize)
    (h : memWriteBytes m a bs = .ok m') : a + bs.length ≤ Config.memSize := by
  induction bs generalizing m a with
  | nil => exact ha
  | cons b bs ih =>
    simp only [memWriteBytes, bind, Except.bind] at h
    split at h
    · exact nomatch h
    · rename_i hwrite
      obtain ⟨hlt, -⟩ := memWrite_ok hwrite
      have hrest : a + 1 + bs.length ≤ Config.memSize := ih (Nat.succ_le_of_lt hlt) h
      rw [List.length_cons]
      omega

/-- A loaded state is the reset state with a memory that the image's bytes were written to (rule R141). -/
theorem load_ok {image : List Byte} {s : State} (h : load image = .ok s) :
    ∃ m, memWriteBytes State.reset.mem 0 image = .ok m ∧ s = { State.reset with mem := m } := by
  simp only [load, bind, Except.bind] at h
  split at h
  · exact nomatch h
  · rename_i m hm
    injection h with h
    exact ⟨m, hm, h.symm⟩

/-- Load writes each byte of the image at its own place, counted from address 0 (rule R141). -/
theorem load_memGet {image : List Byte} {s : State} (h : load image = .ok s) {k : Nat} (hk : k < image.length) :
    memGet s.mem k = .byte image[k] := by
  obtain ⟨m, hm, rfl⟩ := load_ok h
  obtain ⟨m', hm', hbytes, -⟩ :=
    memWriteBytes_fits (m := State.reset.mem) (length_le_of_memWriteBytes_ok (Nat.zero_le _) hm)
  cases hm.symm.trans hm'
  rw [← hbytes k hk, Nat.zero_add]

/-- Settles O44: Load leaves the reset values of RS and `pc`, and the image's first byte is written at address 0, where
`pc` points. -/
theorem executionStartsAtAddressZero : Obligations.ExecutionStartsAtAddressZero := by
  intro image s h
  obtain ⟨m, -, rfl⟩ := load_ok h
  refine ⟨rfl, rfl, fun b bs himage => ?_⟩
  subst himage
  exact load_memGet h (Nat.succ_pos bs.length)

end Sys2Proof.Machine
end

section
/-! PROOFS. The encoding of spec/30_encoding.md: decode and encode are inverse on lists of cells and on the table's
numbers. -/

namespace Sys2Proof

/-! ### Lists of cells (rules R51, R60) -/

/-- The decoder gives back an encoded instruction, whatever cells follow it. -/
theorem decode_encode_append (i : Instr) (rest : List Cell) : decode (encode i ++ rest) = .ok (i, rest) := by
  have hw : decodeWith (cellAt (encode i ++ rest)) .unknownOpcode = .ok i :=
    decodeWith_of_reads i fun k hk => cellAt_eq_ok_iff.mpr (by
      rw [List.getElem?_append_left hk, List.getElem?_eq_getElem hk])
  simp only [decode, hw, ← Machine.encode_length, List.drop_left]

/-- Settles O1: what the decoder takes off a list is the encoding of its answer, and it gives back what was encoded. -/
theorem decodeAndEncodeAgree : Obligations.DecodeAndEncodeAgree := by
  intro cells i rest
  constructor
  · exact decode_ok
  · rintro rfl
    exact decode_encode_append i rest

/-- Settles O5: each of the first four lists is an encoding and the cells after it, and 0xFF has no row. -/
theorem wordsWrittenFromTheSpecDecode : Obligations.WordsWrittenFromTheSpecDecode :=
  ⟨decode_encode_append (.ldi (.byte 0#8) (.byte 42#8)) [], decode_encode_append (.prn (.byte 0#8)) [],
    decode_encode_append (.mul (.byte 0#8) (.byte 1#8)) [], decode_encode_append .hlt [.byte 0b11111111#8],
    decode_of_dispatch_none (dispatch_of_undefined (by decide)) []⟩

/-! ### The table's numbers (spec/opcode_table.json) -/

/-- The bytes of a number are its digits to the base 256, lowest first. -/
theorem tableBytes_of_digits {nbits w : Nat} {a b c : Byte}
    (h : w % 2 ^ nbits = a.toNat + 256 * b.toNat + 65536 * c.toNat) : tableBytes nbits w = [a, b, c] := by
  have hdigit (k : Nat) (d : Byte) (hd : (w % 2 ^ nbits) / 2 ^ (8 * k) % 256 = d.toNat) :
      BitVec.ofNat 8 ((w % 2 ^ nbits) >>> (8 * k)) = d :=
    BitVec.eq_of_toNat_eq (by rw [BitVec.toNat_ofNat, Nat.shiftRight_eq_div_pow, ← hd])
  have ha := a.isLt
  have hb := b.isLt
  have hc := c.isLt
  have h0 := hdigit 0 a (by omega)
  have h1 := hdigit 1 b (by omega)
  have h2 := hdigit 2 c (by omega)
  rw [← h0, ← h1, ← h2]
  rfl

/-- A number decodes to the instruction that its bytes begin with. -/
theorem decodeTableWord_of_tableBytes {nbits w : Nat} {i : Instr} {rest : List Cell}
    (h : (tableBytes nbits w).map .byte = encode i ++ rest) : decodeTableWord nbits w = some i := by
  simp only [decodeTableWord, h, decode_encode_append]

/-- A number that decodes to an instruction begins with that instruction's bytes. -/
theorem tableBytes_of_decodeTableWord {nbits w : Nat} {i : Instr} (h : decodeTableWord nbits w = some i) :
    ∃ rest, (tableBytes nbits w).map .byte = encode i ++ rest := by
  unfold decodeTableWord at h
  split at h
  · next j rest hd =>
    cases h
    exact ⟨rest, decode_ok hd⟩
  · exact nomatch h

/-- Settles O4: the digits of each number are the opcode's pattern and the operand bytes, which is the instruction's
encoding, with bytes 0 above it. -/
theorem tableNumbersDecode : Obligations.TableNumbersDecode := by
  intro a b
  have ha := a.isLt
  have hb := b.isLt
  refine ⟨?_, ?_, ?_, ?_⟩
  · have hbytes := tableBytes_of_digits (nbits := 24) (w := 0x82 + 256 * a.toNat + 65536 * b.toNat)
      (a := Opcode.ldi.pattern) (b := a) (c := b) (Nat.mod_eq_of_lt (by omega))
    exact decodeTableWord_of_tableBytes (rest := []) (hbytes ▸ rfl)
  · have hbytes := tableBytes_of_digits (nbits := 24) (w := 0xA2 + 256 * a.toNat + 65536 * b.toNat)
      (a := Opcode.mul.pattern) (b := a) (c := b) (Nat.mod_eq_of_lt (by omega))
    exact decodeTableWord_of_tableBytes (rest := []) (hbytes ▸ rfl)
  · have hbytes := tableBytes_of_digits (nbits := 16) (w := 0x47 + 256 * a.toNat)
      (a := Opcode.prn.pattern) (b := a) (c := 0#8) (Nat.mod_eq_of_lt (by omega))
    exact decodeTableWord_of_tableBytes (rest := [.byte 0#8]) (hbytes ▸ rfl)
  · have hbytes := tableBytes_of_digits (nbits := 8) (w := 0x01)
      (a := Opcode.hlt.pattern) (b := 0#8) (c := 0#8) (Nat.mod_eq_of_lt (by omega))
    exact decodeTableWord_of_tableBytes (rest := [.byte 0#8, .byte 0#8]) (hbytes ▸ rfl)

end Sys2Proof
end

section
/-! PROOFS. The invariants of spec/10_state.md rule R28: they hold at reset and after Load, and every step keeps them. -/

namespace Sys2Proof.Machine

/-- An instruction that is fetched lies in the memory as a whole. -/
theorem fetch_end_le {s : State} {i : Instr} (h : fetch s = .ok i) : s.pc + i.length ≤ Config.memSize := by
  have hlast := (fetch_ok h i.opcode.nops (by rw [encode_length, Instr.length]; omega)).1
  rw [Instr.length]
  omega

/-- A step that leaves the machine RUNNING is a completed instruction, and moves `pc` by its length. -/
theorem step_running {s t : State} (h : step s = .next t) (ht : t.rs = .running) :
    ∃ i, fetch s = .ok i ∧ Completes s i t ∧ t.pc = s.pc + i.length := by
  obtain ⟨-, ⟨i, hi, hc⟩ | ⟨e, rfl⟩⟩ := step_next h
  · exact ⟨i, hi, hc, completes_pc hc ht⟩
  · exact nomatch ht

theorem step_pc_le_of_running {s t : State} (h : step s = .next t) (ht : t.rs = .running) :
    t.pc ≤ Config.memSize := by
  obtain ⟨i, hi, -, hpc⟩ := step_running h ht
  exact hpc ▸ fetch_end_le hi

/-- Rule R28 (a): a step that ends the run keeps `pc`, and any other ends where its instruction does. -/
theorem step_keeps_pcInRange {s t : State} (h : step s = .next t) (hs : s.PcInRange) : t.PcInRange := by
  obtain ⟨-, hrun | ⟨-, -, rfl⟩ | ⟨e, rfl⟩⟩ := runStateTransitions.2 s t h
  · exact step_pc_le_of_running h hrun
  · exact hs
  · exact hs

/-- Rule R28 (f): only HLT's step ends HALTED, and it keeps `pc` and memory. -/
theorem step_haltedAtHlt {s t : State} (h : step s = .next t) : t.HaltedAtHlt := by
  intro ht
  obtain ⟨-, hrun | ⟨-, hcell, rfl⟩ | ⟨e, rfl⟩⟩ := runStateTransitions.2 s t h
  · exact nomatch hrun.symm.trans ht
  · exact hcell
  · exact nomatch ht

/-- Settles O36: a step keeps memory, so its form too; `pc` and the status have their own lemmas. -/
theorem everyStepKeepsTheInvariant : Obligations.EveryStepKeepsTheInvariant := by
  intro s t hs h
  obtain ⟨hmem, hpc, hstatus, -⟩ := hs
  exact ⟨step_mem h ▸ hmem, step_keeps_pcInRange h hpc, step_keeps_statusConsistent h hstatus, step_haltedAtHlt h⟩

/-- The reset values of `pc`, RS and ERR meet the invariant over any canonical memory. -/
theorem inv_reset_withMem {m : Memory} (hm : m.wf = true) : State.Inv { State.reset with mem := m } where
  memCanonical := hm
  pcInRange := Nat.zero_le _
  statusConsistent := statusConsistent_of_running rfl rfl
  haltedAtHlt := fun h => nomatch h

/-- Settles O37: the empty memory is canonical. -/
theorem resetMeetsTheInvariant : Obligations.ResetMeetsTheInvariant :=
  inv_reset_withMem reset_mem_wf

/-- Settles O38: Load gives the reset state with a memory made by writes, which keep the canonical form. -/
theorem loadMeetsTheInvariant : Obligations.LoadMeetsTheInvariant := by
  intro image s h
  obtain ⟨m, hm, rfl⟩ := load_ok h
  exact inv_reset_withMem (memWriteBytes_wf reset_mem_wf hm)

end Sys2Proof.Machine
end

section
/-! PROOFS. Load of spec/70_reset_and_hazards.md: the reset state it builds from an image that fits, and the error from
one that does not. -/

namespace Sys2Proof.Machine

theorem memGet_nil (a : Nat) : memGet [] a = .empty := rfl

theorem reset_regs_empty (r : RegIndex) : State.reset.regs[r] = .empty :=
  Vector.getElem_replicate r.isLt

theorem load_of_memWriteBytes {image : List Byte} {m : Memory} (h : memWriteBytes State.reset.mem 0 image = .ok m) :
    load image = .ok { State.reset with mem := m } := by
  simp only [load, bind, Except.bind, h]

/-- Settles O42: the image is written from address 0 over the empty memory of reset, and nothing else is touched. -/
theorem loadBuildsTheResetState : Obligations.LoadBuildsTheResetState := by
  intro image hlen
  obtain ⟨m, hm, hbytes, hrest⟩ :=
    memWriteBytes_fits (bs := image) (m := State.reset.mem) (a := 0) (by rw [Nat.zero_add]; exact hlen)
  refine ⟨_, load_of_memWriteBytes hm, fun a ha => ?_, fun a ha => ?_, reset_regs_empty, rfl, rfl, rfl, rfl⟩
  · simpa only [Nat.zero_add] using hbytes a ha
  · exact (hrest a (.inr (by rwa [Nat.zero_add]))).trans (memGet_nil a)

/-- Bytes written from inside the memory past its end raise with the first address beyond it (rules R32, R143). -/
theorem memWriteBytes_overflow {bs : List Byte} {m : Memory} {a : Nat} (ha : a ≤ Config.memSize)
    (h : Config.memSize < a + bs.length) :
    memWriteBytes m a bs = .error (.outOfBoundsAddress (.mem Config.memSize)) := by
  induction bs generalizing m a with
  | nil => exact absurd ha (Nat.not_le_of_lt h)
  | cons b bs ih =>
    rw [List.length_cons] at h
    simp only [memWriteBytes, bind, Except.bind]
    by_cases hlt : a < Config.memSize
    · simp only [memWrite_inside hlt]
      exact ih (Nat.succ_le_of_lt hlt) (by omega)
    · obtain rfl : a = Config.memSize := Nat.le_antisymm ha (Nat.le_of_not_lt hlt)
      simp only [memWrite_outside (Nat.le_refl _)]

/-- Settles O43: the byte for address 256 raises, and Load has no state to answer then. -/
theorem overlongImageGivesNoInstance : Obligations.OverlongImageGivesNoInstance := by
  intro image hlen
  have herror := memWriteBytes_overflow (bs := image) (m := State.reset.mem) (Nat.zero_le _)
    (by rw [Nat.zero_add]; exact hlen)
  simp only [load, bind, Except.bind, herror]

/-- Settles O45: the empty image leaves the empty memory, and the other items are the reset values. -/
theorem resetIsTheLoadOfTheEmptyImage : Obligations.ResetIsTheLoadOfTheEmptyImage :=
  ⟨load_of_memWriteBytes rfl, rfl, rfl, rfl, rfl, reset_regs_empty, memGet_nil⟩

end Sys2Proof.Machine
end

section
/-! PROOFS. What each instruction does to the state: its completion, the errors of its operands, and its frame
(spec/41_ldi.md to spec/44_hlt.md). -/

namespace Sys2Proof.Machine

/-! ### Register indices (rule R39) -/

/-- An EMPTY cell or a byte above 7 fails the index check. -/
theorem regCheck_of_invalid {c : Cell} (h : c = .empty ∨ ∃ b : Byte, c = .byte b ∧ 7 < b.toNat) :
    regCheck c = .error (.outOfBoundsAddress (.reg c)) := by
  obtain rfl | ⟨b, rfl, hb⟩ := h
  · rfl
  · exact regCheck_byte_outside (Nat.not_lt_of_le hb)

/-- The byte that names a register is its index. -/
theorem toNat_of_byte_eq_indexCell {b : Byte} {r : RegIndex} (h : Cell.byte b = indexCell r) : b.toNat = r.val := by
  have hok : regCheck (.byte b) = .ok r := h ▸ regCheck_indexCell r
  by_cases hb : b.toNat < Config.numRegs
  · rw [regCheck_byte_inside hb] at hok
    exact congrArg Fin.val (Except.ok.inj hok)
  · rw [regCheck_byte_outside hb] at hok
    exact nomatch hok

/-- Settles O11: the index check is the first thing each of them does with such an operand, and MUL makes it for its second
operand once the first has passed. -/
theorem invalidRegisterIndexRaises : Obligations.InvalidRegisterIndexRaises := by
  intro s c hs hc
  have hcheck := regCheck_of_invalid hc
  refine ⟨fun imm => ?_, ?_, fun rb => ?_, fun a ha => ?_⟩
  · exact exec_ldi_of_regCheck_error hs hcheck imm
  · exact exec_prn_of_regCheck_error hs hcheck
  · exact exec_mul_of_aluApply_error hs (aluApply_mul_of_regCheck_fst_error hcheck)
  · have hindex := regCheck_byte_inside (Nat.lt_succ_of_le ha)
    exact exec_mul_of_aluApply_error hs (aluApply_mul_of_regCheck_snd_error hindex hcheck)

/-! ### Completion -/

/-- Settles O12: LDI checks its index and nothing else. -/
theorem ldiCompletes : Obligations.LdiCompletes := by
  intro s r imm hr hs
  exact exec_ldi_of_regCheck_ok hs (regCheck_byte_inside hr) imm

/-- Settles O21: both indices pass the check and both registers hold bytes, so none of MUL's checks fails. -/
theorem mulCompletes : Obligations.MulCompletes := by
  intro s a b x y ha hb hs hx hy
  exact exec_mul_of_aluApply_ok hs (aluApply_mul_of_bytes (regCheck_byte_inside ha) (regCheck_byte_inside hb) hx hy)

/-- Settles O24: HLT checks nothing. -/
theorem hltCompletes : Obligations.HltCompletes :=
  fun _ hs => exec_hlt hs

/-! ### Reading back a written register -/

theorem regRead_regWrite_same (s : State) (r : RegIndex) (v : Cell) : regRead (regWrite r v s) r = v :=
  Vector.getElem_set_self r.isLt

theorem regRead_regWrite_other (s : State) {r r' : RegIndex} (v : Cell) (h : r' ≠ r) :
    regRead (regWrite r v s) r' = regRead s r' := by
  by_contra hne
  exact h (regWrite_changed hne)

/-- Settles O14: the register that LDI emptied fails the source check, which PRN and MUL make once the indices are valid;
as MUL's second operand, once the first has passed it. -/
theorem ldiOfEmptyImmediateEmptiesTheRegister : Obligations.LdiOfEmptyImmediateEmptiesTheRegister := by
  intro s r hr hs
  have hindex := regCheck_byte_inside hr
  have hempty : regRead (advance .ldi (regWrite ⟨r.toNat, hr⟩ .empty s)) ⟨r.toNat, hr⟩ = .empty :=
    regRead_regWrite_same s _ _
  refine ⟨_, exec_ldi_of_regCheck_ok hs hindex .empty, hempty, rfl, ?_, fun b hb => ?_, fun a x ha hx => ?_⟩
  · exact exec_prn_of_empty hs hindex hempty
  · exact exec_mul_of_aluApply_error hs (aluApply_mul_of_fst_empty hindex (regCheck_byte_inside hb) hempty)
  · exact exec_mul_of_aluApply_error hs (aluApply_mul_of_snd_empty (regCheck_byte_inside ha) hindex hx hempty)

/-! ### The product (rule R103) -/

/-- The low 8 bits of the product are the product of bit vectors. -/
theorem mulLow_eq_mul (a b : Byte) : mulLow a b = a * b :=
  BitVec.eq_of_toNat_eq (BitVec.toNat_mul a b).symm

theorem mulLow_comm (a b : Byte) : mulLow a b = mulLow b a := by
  rw [mulLow_eq_mul, mulLow_eq_mul, BitVec.mul_comm]

/-- Settles O18: the product of bit vectors is the product mod 256, and bit vectors are a quotient ring of the integers. -/
theorem productIsTakenMod256 : Obligations.ProductIsTakenMod256 := by
  intro a b
  constructor
  · exact BitVec.toNat_ofNat ..
  · rw [mulLow_eq_mul, BitVec.ofInt_mul, BitVec.ofInt_toInt, BitVec.ofInt_toInt]

/-- A MUL that leaves the machine RUNNING completed. -/
theorem exec_mul_running {s t : State} {ra rb : Cell} (h : exec (.mul ra rb) s = .next t) (ht : t.rs = .running) :
    s.rs = .running ∧ ∃ a b x y, ra = indexCell a ∧ rb = indexCell b ∧ regRead s a = .byte x ∧ regRead s b = .byte y ∧
      t = advance .mul (regWrite a (.byte (mulLow x y)) s) := by
  obtain ⟨hs, hc | ⟨e, rfl, -⟩⟩ := exec_next h
  · cases hc with
    | mul a b x y hx hy => exact ⟨hs, a, b, x, y, rfl, rfl, hx, hy, rfl⟩
  · exact nomatch ht

/-- Settles O23: both orders pass the same checks and write the same product, each to its own first register. -/
theorem mulCommutesInValue : Obligations.MulCommutesInValue := by
  intro s t u a b ha hb hab ht hu hrun
  obtain ⟨hs, ia, ib, x, y, hia, hib, hx, hy, rfl⟩ := exec_mul_running ht hrun
  obtain rfl : (⟨a.toNat, ha⟩ : RegIndex) = ia := Fin.ext (toNat_of_byte_eq_indexCell hia)
  obtain rfl : (⟨b.toNat, hb⟩ : RegIndex) = ib := Fin.ext (toNat_of_byte_eq_indexCell hib)
  have hne : (⟨b.toNat, hb⟩ : RegIndex) ≠ ⟨a.toNat, ha⟩ := fun h =>
    hab (BitVec.eq_of_toNat_eq (congrArg Fin.val h).symm)
  have hswap := mulCompletes s b a y x hb ha hs hy hx
  cases hu.symm.trans hswap
  refine ⟨hs, ?_, regRead_regWrite_other s _ hne, regRead_regWrite_other s _ hne.symm⟩
  calc regRead (regWrite ⟨a.toNat, ha⟩ (.byte (mulLow x y)) s) ⟨a.toNat, ha⟩
    _ = .byte (mulLow x y) := regRead_regWrite_same s _ _
    _ = .byte (mulLow y x) := by rw [mulLow_comm]
    _ = regRead (regWrite ⟨b.toNat, hb⟩ (.byte (mulLow y x)) s) ⟨b.toNat, hb⟩ := (regRead_regWrite_same s _ _).symm

/-! ### Frames -/

/-- Settles O26: a completion writes the register that the first operand names and moves `pc`; an error entry keeps both. -/
theorem ldiMulFrame : Obligations.LdiMulFrame := by
  intro s t ra c h
  have written (a : RegIndex) (v : Cell) (op : Opcode) (r : RegIndex) (hr : indexCell a ≠ indexCell r) :
      (advance op (regWrite a v s)).regs[r] = s.regs[r] :=
    regRead_regWrite_other s v fun hra => hr (hra ▸ rfl)
  have raised (e : Error) : (raise e s).rs = .errored ∧ (raise e s).regs = s.regs ∧ (raise e s).pc = s.pc :=
    ⟨rfl, rfl, rfl⟩
  obtain h | h := h
  all_goals obtain ⟨-, hc | ⟨e, rfl, -⟩⟩ := exec_next h
  · cases hc with
    | ldi a => exact ⟨written a c .ldi, fun _ => rfl, rfl, .inl ⟨rfl, rfl⟩⟩
  · exact ⟨fun _ _ => rfl, fun _ => rfl, rfl, .inr (raised e)⟩
  · cases hc with
    | mul a b x y hx hy => exact ⟨written a _ .mul, fun _ => rfl, rfl, .inl ⟨rfl, rfl⟩⟩
  · exact ⟨fun _ _ => rfl, fun _ => rfl, rfl, .inr (raised e)⟩

/-- Settles O27: a completion appends to OUT and moves `pc`; an error entry keeps both. -/
theorem prnFrame : Obligations.PrnFrame := by
  intro s t ra h
  obtain ⟨-, hc | ⟨e, rfl, -⟩⟩ := exec_next h
  · cases hc with
    | prn r v hv => exact ⟨fun _ => rfl, fun _ => rfl, List.take_left, .inl ⟨rfl, rfl⟩⟩
  · exact ⟨fun _ => rfl, fun _ => rfl, List.take_length, .inr ⟨rfl, rfl, rfl⟩⟩

/-- Settles O28: HLT always completes where it answers a state, and a completion changes RS alone. -/
theorem hltFrame : Obligations.HltFrame := by
  intro s t h
  have hs := (exec_next h).1
  cases h.symm.trans (exec_hlt hs)
  exact ⟨fun _ => rfl, fun _ => rfl, rfl, rfl, rfl⟩

end Sys2Proof.Machine
end

section
/-! PROOFS. What a whole step records and emits: where its cells do not exist, what an error changes (spec/60_exceptions.md),
and how OUT grows (spec/10_state.md rule R20). -/

namespace Sys2Proof.Machine

/-! ### Errors of the fetch -/

/-- Settles O10: EMPTY is no key of the dispatch table. -/
theorem emptyOpcodeCellRaises : Obligations.EmptyOpcodeCellRaises := by
  intro s hs hpc hcell
  have hstep := step_of_dispatch_none hs (Nat.lt_succ_of_le hpc) (hcell ▸ rfl)
  rwa [hcell] at hstep

/-- Settles O8: above 255 the opcode cell does not exist; at 255 and at 254 it does, and the row counts more operand cells
than are left. -/
theorem cellsBeyondMemoryRaise : Obligations.CellsBeyondMemoryRaise := by
  intro s hs
  have hcut {op : Opcode} (hpc : s.pc < 256) (hcell : memGet s.mem s.pc = .byte op.pattern)
      (hlen : 256 < s.pc + 1 + op.nops) : step s = .next (raise (.outOfBoundsAddress (.mem 256)) s) :=
    step_beyondMemory hs hpc hcell hlen
  refine ⟨fun hpc => ?_, fun hpc hcell => ?_, fun hpc hcell => ?_⟩
  · exact step_of_pc_outside hs (Nat.succ_le_of_lt hpc)
  · rw [← hpc, List.mem_cons, List.mem_cons, List.mem_singleton] at hcell
    obtain hcell | hcell | hcell := hcell
    · exact hcut (op := .ldi) (by omega) hcell (show 256 < s.pc + 1 + 2 by omega)
    · exact hcut (op := .prn) (by omega) hcell (show 256 < s.pc + 1 + 1 by omega)
    · exact hcut (op := .mul) (by omega) hcell (show 256 < s.pc + 1 + 2 by omega)
  · rw [← hpc, List.mem_cons, List.mem_singleton] at hcell
    obtain hcell | hcell := hcell
    · exact hcut (op := .ldi) (by omega) hcell (show 256 < s.pc + 1 + 2 by omega)
    · exact hcut (op := .mul) (by omega) hcell (show 256 < s.pc + 1 + 2 by omega)

/-- Settles O35: only the fetch records a memory address; from `pc` in range it is 256, `pc` itself or the first operand
cell that does not exist. -/
theorem outOfRangeAddressIs256 : Obligations.OutOfRangeAddressIs256 := by
  intro s t a hpc h ht herr
  obtain ⟨e, rfl, he⟩ := step_errored h ht
  cases Option.some.inj herr
  obtain hfetch | ⟨c, hreg⟩ | ⟨r, -, huninit⟩ := he
  · obtain ⟨hout, hmem⟩ | ⟨-, ⟨-, hunknown⟩ | ⟨op, k, -, -, -, hmem⟩⟩ := fetch_error hfetch
    · cases hmem
      exact Nat.le_antisymm hpc hout
    · exact nomatch hunknown
    · cases hmem
      rfl
  · exact nomatch hreg
  · exact nomatch huninit

/-- Settles O31: a step that ends ERRORED is an error entry, which writes RS and ERR. -/
theorem erroredStepChangesOnlyTheStatus : Obligations.ErroredStepChangesOnlyTheStatus := by
  intro s t h ht
  obtain ⟨e, rfl, -⟩ := step_errored h ht
  exact ⟨rfl, rfl, rfl, rfl, rfl⟩

/-! ### OUT -/

/-- A completed instruction other than PRN leaves OUT as it is; PRN appends the byte of the register it names. -/
theorem completes_out {s t : State} {i : Instr} (h : Completes s i t) :
    (i.opcode ≠ .prn ∧ t.out = s.out) ∨
      ∃ r v, i = .prn (indexCell r) ∧ regRead s r = .byte v ∧ t.rs = s.rs ∧ t.out = s.out ++ [v] := by
  cases h with
  | ldi r imm => exact .inl ⟨Opcode.noConfusion, rfl⟩
  | prn r v hv => exact .inr ⟨r, v, rfl, hv, rfl, rfl⟩
  | mul a b x y hx hy => exact .inl ⟨Opcode.noConfusion, rfl⟩
  | hlt => exact .inl ⟨Opcode.noConfusion, rfl⟩

/-- Settles O34: of the completed instructions PRN alone writes OUT, and an error entry keeps it. -/
theorem outputGrowsOnlyByPrn : Obligations.OutputGrowsOnlyByPrn := by
  intro s t h
  obtain ⟨hs, ⟨i, hi, hc⟩ | ⟨e, rfl⟩⟩ := step_next h
  · obtain ⟨-, hout⟩ | ⟨r, v, rfl, hv, hrs, hout⟩ := completes_out hc
    · exact .inl hout
    · obtain ⟨-, hcell⟩ := fetch_opcodeCell hi
      exact .inr ⟨hcell, hrs.trans hs, r, v, fetch_firstOperandCell hi rfl, hv, hout⟩
  · exact .inl rfl

end Sys2Proof.Machine
end

section
/-! PROOFS. Stored instructions (spec/40_execution_loop.md): a step runs what its own cells decode to and reads no other
cell, and a run of them is their plain execution in order. -/

namespace Sys2Proof.Machine

/-! ### A step at stored cells (rules R71 to R75) -/

theorem holdsAt_iff_getElem {s : State} {cells : List Cell} {a : Nat} :
    s.holdsAt a cells ↔ ∀ k (hk : k < cells.length), a + k < Config.memSize ∧ memGet s.mem (a + k) = cells[k] := by
  induction cells generalizing a with
  | nil => exact iff_of_true trivial fun k hk => absurd hk (Nat.not_lt_zero k)
  | cons c cs ih =>
    have hshift (k : Nat) : a + 1 + k = a + (k + 1) := by omega
    simp only [State.holdsAt, ih, hshift]
    constructor
    · rintro ⟨ha, hc, hcs⟩ k hk
      cases k with
      | zero => exact ⟨ha, hc⟩
      | succ k => exact hcs k (Nat.lt_of_succ_lt_succ hk)
    · intro h
      obtain ⟨ha, hc⟩ := h 0 (Nat.succ_pos _)
      exact ⟨ha, hc, fun k hk => h (k + 1) (Nat.succ_lt_succ hk)⟩

theorem fetch_of_holdsAt {s : State} {i : Instr} (h : s.holdsAt s.pc (encode i)) : fetch s = .ok i :=
  fetch_of_encoded i (holdsAt_iff_getElem.mp h)

/-- Settles O7: cells that decode to an instruction begin with its encoding, which is what the fetch reads. -/
theorem stepRunsTheDecodedInstruction : Obligations.StepRunsTheDecodedInstruction := by
  intro s cells rest i hcells hdecode
  rw [decode_ok hdecode, holdsAt_append] at hcells
  exact step_eq_exec (fetch_of_holdsAt hcells.1)

/-! ### An instruction placed at `pc` -/

/-- Where all the bytes fit, placing them is writing them. -/
theorem memPlaceBytes_of_memWriteBytes {bs : List Byte} {m m' : Memory} {a : Nat}
    (h : memWriteBytes m a bs = .ok m') : memPlaceBytes m a bs = m' := by
  induction bs generalizing m a with
  | nil =>
    injection h
  | cons b bs ih =>
    simp only [memWriteBytes, bind, Except.bind] at h
    split at h
    · exact nomatch h
    · next hwrite =>
      simp only [memPlaceBytes, hwrite]
      exact ih h

theorem tableBytes_length (nbits w : Nat) : (tableBytes nbits w).length = 3 := rfl

/-- A word placed where three cells fit is held there, and no other address changes. -/
theorem withFetchWord_mem (s : State) (nbits w : Nat) (hpc : s.pc + 3 ≤ Config.memSize) :
    (s.withFetchWord nbits w).holdsAt s.pc ((tableBytes nbits w).map .byte) ∧
      ∀ a, a < s.pc ∨ s.pc + 3 ≤ a → memGet (s.withFetchWord nbits w).mem a = memGet s.mem a := by
  obtain ⟨m, hm, hbytes, hrest⟩ := memWriteBytes_fits (bs := tableBytes nbits w) (m := s.mem) (a := s.pc) hpc
  have hmem : (s.withFetchWord nbits w).mem = m := memPlaceBytes_of_memWriteBytes hm
  rw [hmem]
  refine ⟨holdsAt_iff_getElem.mpr fun k hk => ?_, hrest⟩
  rw [List.length_map, tableBytes_length] at hk
  rw [hmem, List.getElem_map]
  exact ⟨by omega, hbytes k hk⟩

/-- Settles O46: the placed cells begin with the instruction's encoding. -/
theorem placedInstructionRunsNext : Obligations.PlacedInstructionRunsNext := by
  intro s nbits w i hpc hi
  obtain ⟨hholds, hrest⟩ := withFetchWord_mem s nbits w (Nat.add_le_add_right hpc 3)
  obtain ⟨rest, hcells⟩ := tableBytes_of_decodeTableWord hi
  rw [hcells, holdsAt_append] at hholds
  exact ⟨step_eq_exec (fetch_of_holdsAt hholds.1), hrest⟩

/-! ### Another memory that holds the same instruction -/

/-- `s` with the memory `m`. -/
def State.withMem (m : Memory) (s : State) : State := { s with mem := m }

/-- A step's outcome with its next state, where it has one, taken through `f`. -/
def mapNext (f : State → State) : Host.Outcome State Fault Refusal → Host.Outcome State Fault Refusal
  | .next t => .next (f t)
  | .fault e => .fault e
  | .refused r => .refused r

section
variable (m : Memory) (s : State)

theorem sourceByte_withMem (r : RegIndex) : sourceByte (s.withMem m) r = sourceByte s r := rfl

/-- The ALU has no access to memory. -/
theorem aluApply_withMem (op : AluOp) (ra rb : Cell) :
    aluApply op ra rb (s.withMem m) = State.withMem m <$> aluApply op ra rb s := by
  cases op with
  | mul => simp only [aluApply, sourceByte_withMem, map_bind]; rfl
  | add => rfl
  | other k => rfl

/-- A step's end passes the handler's result on, with the memory that the handler left. -/
theorem settle_withMem (x : Except Error State) :
    settle (s.withMem m) (State.withMem m <$> x) = mapNext (State.withMem m) (settle s x) := by
  have hrs : (s.withMem m).rs = s.rs := rfl
  simp only [settle, hrs]
  cases s.rs with
  | running => cases x <;> rfl
  | halted => rfl
  | errored => rfl

/-- No instruction reads or writes memory once its cells are fetched (rule R38). -/
theorem exec_withMem (i : Instr) :
    exec i (s.withMem m) = mapNext (State.withMem m) (exec i s) := by
  cases i with
  | ldi ra imm =>
    refine Eq.trans ?_ (settle_withMem m s _)
    simp only [exec, execLdi, map_bind]
    rfl
  | prn ra =>
    refine Eq.trans ?_ (settle_withMem m s _)
    simp only [exec, execPrn, sourceByte_withMem, map_bind]
    rfl
  | mul ra rb =>
    refine Eq.trans ?_ (settle_withMem m s _)
    simp only [exec, execMul, aluApply_withMem, map_bind, bind_map_left]
    rfl
  | hlt => exact settle_withMem m s (.ok (halt s))

end

/-- Settles O39: memory that agrees on the instruction's cells gives the same fetch, and no meaning looks at memory. -/
theorem stepReadsOnlyItsOwnCells : Obligations.StepReadsOnlyItsOwnCells := by
  intro s other i hi hagree
  have hother : fetch (s.withMem other) = .ok i := fetch_of_encoded i fun k hk => by
    obtain ⟨hin, hcell⟩ := fetch_ok hi k hk
    exact ⟨hin, (hagree k (encode_length i ▸ hk)).trans hcell⟩
  rw [step_eq_exec hi]
  refine ((step_eq_exec hother).trans (exec_withMem other s i)).trans ?_
  cases exec i s <;> rfl

/-! ### The loop refines plain execution (rules R71, R79) -/

/-- Outside RUNNING the way a step ends does not depend on what it did. -/
theorem settle_of_not_running {s : State} (hs : s.rs ≠ .running) (x y : Except Error State) :
    settle s x = settle s y := by
  cases h : s.rs with
  | running => exact absurd h hs
  | halted => simp only [settle, h]
  | errored => simp only [settle, h]

/-- Every instruction has a meaning. -/
theorem exec_ne_refused (i : Instr) (s : State) (r : Refusal) : exec i s ≠ .refused r := by
  intro h
  obtain ⟨x, hx⟩ := exec_eq_settle i s
  rw [hx] at h
  unfold settle at h
  split at h
  · exact nomatch h
  · exact nomatch h
  · split at h <;> exact nomatch h

theorem execAll_cons_of_next {i : Instr} {is : List Instr} {s t : State} (h : exec i s = .next t) :
    execAll (i :: is) s = execAll is t := by
  simp only [execAll, h]

theorem execAll_cons_of_fault {i : Instr} {is : List Instr} {s : State} {f : Fault} (h : exec i s = .fault f) :
    execAll (i :: is) s = .fault f := by
  simp only [execAll, h]

theorem step_eq_exec_of_not_running {s : State} (hs : s.rs ≠ .running) (i : Instr) : step s = exec i s := by
  obtain ⟨x, hx⟩ := step_eq_settle s
  obtain ⟨y, hy⟩ := exec_eq_settle i s
  rw [hx, hy, settle_of_not_running hs x y]

theorem holdsAt_congr {s t : State} (h : t.mem = s.mem) {a : Nat} {cells : List Cell} :
    t.holdsAt a cells ↔ s.holdsAt a cells := by
  simp only [holdsAt_iff_getElem, h]

/-- After a step at a stored instruction that leaves the machine RUNNING, `pc` points at the cells stored behind it. -/
theorem holdsAt_of_step {s t : State} {i : Instr} {cells : List Cell} (h : step s = .next t) (ht : t.rs = .running)
    (hs : s.holdsAt s.pc (encode i ++ cells)) : t.holdsAt t.pc cells := by
  obtain ⟨hi, hcells⟩ := holdsAt_append.mp hs
  obtain ⟨j, hj, -, hpc⟩ := step_running h ht
  cases hj.symm.trans (fetch_of_holdsAt hi)
  rwa [hpc, ← encode_length, holdsAt_congr (step_mem h)]

/-- The refinement, with the stored cells asked for only while the machine is RUNNING: elsewhere both sides stop. -/
theorem run_eq_execAll (is : List Instr) (s : State)
    (hs : s.rs = .running → s.holdsAt s.pc (is.flatMap encode)) : core.run is.length s = execAll is s := by
  induction is generalizing s with
  | nil => rfl
  | cons i is ih =>
    have hstep : step s = exec i s := by
      by_cases hrun : s.rs = .running
      · exact step_eq_exec (fetch_of_holdsAt (holdsAt_append.mp (hs hrun)).1)
      · exact step_eq_exec_of_not_running hrun i
    rw [List.length_cons]
    cases h : exec i s with
    | next t =>
      have hnext : step s = .next t := hstep.trans h
      rw [run_succ_of_next hnext, execAll_cons_of_next h]
      exact ih t fun ht => holdsAt_of_step hnext ht (hs (step_next hnext).1)
    | fault f =>
      rw [run_succ_of_fault (hstep.trans h)]
      exact (execAll_cons_of_fault h).symm
    | refused r => exact absurd h (exec_ne_refused i s r)

/-- Settles O53: the refinement from a state that holds the cells. -/
theorem loopRunsTheStoredInstructionsInOrder : Obligations.LoopRunsTheStoredInstructionsInOrder :=
  fun is s hs => run_eq_execAll is s fun _ => hs

/-! ### Straight-line programs -/

/-- Settles O15: the five cells are the two encodings; LDI writes the register that PRN then reads. -/
theorem ldiThenPrnEmitsTheImmediate : Obligations.LdiThenPrnEmitsTheImmediate := by
  intro s r v hs hr hcells
  have hindex := regCheck_byte_inside hr
  obtain ⟨u, hu⟩ : ∃ u, u = advance .ldi (regWrite ⟨r.toNat, hr⟩ (.byte v) s) := ⟨_, rfl⟩
  have hldi : exec (.ldi (.byte r) (.byte v)) s = .next u := hu ▸ exec_ldi_of_regCheck_ok hs hindex (.byte v)
  have hprn : exec (.prn (.byte r)) u = .next (advance .prn (emit v u)) :=
    exec_prn_of_byte (hu ▸ hs) hindex (hu ▸ regRead_regWrite_same s _ _)
  have hrun : core.run 2 s = execAll [.ldi (.byte r) (.byte v), .prn (.byte r)] s :=
    loopRunsTheStoredInstructionsInOrder [.ldi (.byte r) (.byte v), .prn (.byte r)] s hcells
  have hexec : execAll [.ldi (.byte r) (.byte v), .prn (.byte r)] s = .next (advance .prn (emit v u)) :=
    (execAll_cons_of_next hldi).trans (execAll_cons_of_next hprn)
  exact ⟨_, hrun.trans hexec, hu ▸ rfl, hu ▸ rfl, hu ▸ hs⟩

/-- The registers in the list hold bytes. -/
def Written (written : List RegIndex) (s : State) : Prop := ∀ r ∈ written, ∃ v : Byte, regRead s r = .byte v

/-- A byte written to a register adds it to those that hold bytes. -/
theorem Written.regWrite {written : List RegIndex} {s : State} (h : Written written s) (a : RegIndex) (v : Byte) :
    Written (a :: written) (regWrite a (.byte v) s) := by
  intro r hr
  by_cases hra : r = a
  · subst hra
    exact ⟨v, regRead_regWrite_same s r _⟩
  · obtain ⟨x, hx⟩ := h r ((List.mem_cons.mp hr).resolve_left hra)
    exact ⟨x, (regRead_regWrite_other s _ hra).trans hx⟩

/-- Instructions that meet the boot requirements each complete, and HLT comes last (rule R145). -/
theorem execAll_of_bootReady {is : List Instr} {written : List RegIndex} {s : State} (hs : s.rs = .running)
    (hw : Written written s) (hready : bootReady written is = true) :
    ∃ t, execAll is s = .next t ∧ t.rs = .halted ∧ t.err = s.err := by
  induction is generalizing written s with
  | nil => exact nomatch hready
  | cons i is ih =>
    cases i with
    | ldi ra imm =>
      simp only [bootReady] at hready
      split at hready
      · next r v hr =>
        rw [execAll_cons_of_next (exec_ldi_of_regCheck_ok hs hr _)]
        exact ih hs (hw.regWrite r v) hready
      · exact nomatch hready
    | prn ra =>
      simp only [bootReady] at hready
      split at hready
      · next r hr =>
        rw [Bool.and_eq_true, List.contains_iff_mem] at hready
        obtain ⟨v, hv⟩ := hw r hready.1
        rw [execAll_cons_of_next (exec_prn_of_byte hs hr hv)]
        exact ih hs hw hready.2
      · exact nomatch hready
    | mul ra rb =>
      simp only [bootReady] at hready
      split at hready
      · next a b hra hrb =>
        rw [Bool.and_eq_true, Bool.and_eq_true, List.contains_iff_mem, List.contains_iff_mem] at hready
        obtain ⟨⟨hawritten, hbwritten⟩, hrest⟩ := hready
        obtain ⟨x, hx⟩ := hw a hawritten
        obtain ⟨y, hy⟩ := hw b hbwritten
        rw [execAll_cons_of_next (exec_mul_of_aluApply_ok hs (aluApply_mul_of_bytes hra hrb hx hy))]
        exact ih hs (fun r hr => hw.regWrite a _ r (List.mem_cons_of_mem a hr)) hrest
      · exact nomatch hready
    | hlt =>
      obtain rfl : is = [] := List.isEmpty_iff.mp hready
      exact ⟨halt s, execAll_cons_of_next (exec_hlt hs), rfl, rfl⟩

/-- Settles O54: the run is the plain execution of the instructions, each of which completes. -/
theorem bootReadyCodeHaltsCleanly : Obligations.BootReadyCodeHaltsCleanly := by
  intro is written s hs hw hb hcells
  rw [loopRunsTheStoredInstructionsInOrder is s hcells]
  exact execAll_of_bootReady hs hw hb

end Sys2Proof.Machine
end

section
/-! PROOFS. Runs (spec/40_execution_loop.md rules R79 to R81): what holds along them, what they count, and that they end in
a reported outcome. -/

namespace Sys2Proof.Machine

/-! ### Along a run -/

/-- Settles O47: each step keeps memory. -/
theorem memoryIsConstantDuringARun : Obligations.MemoryIsConstantDuringARun :=
  fun _ s _ h => run_keeps (P := fun u => u.mem = s.mem) (fun hstep hu => (step_mem hstep).trans hu) h rfl

/-- A run that ends RUNNING begins RUNNING. -/
theorem running_of_run_running {k : Nat} {s t : State} (h : core.run k s = .next t) (ht : t.rs = .running) :
    s.rs = .running := by
  cases k with
  | zero =>
    injection h with h
    exact h ▸ ht
  | succ k => exact running_of_run_succ h

/-- A run from a terminal state has no step. -/
theorem run_of_not_running {k : Nat} {s t : State} (hs : s.rs ≠ .running) (h : core.run k s = .next t) :
    k = 0 ∧ t = s := by
  cases k with
  | zero =>
    injection h with h
    exact ⟨rfl, h.symm⟩
  | succ k => exact absurd (running_of_run_succ h) hs

/-- Induction along a run that ends RUNNING: every step of it is one between RUNNING states. -/
theorem run_running_induction {P : Nat → State → Prop} {t : State} (ht : t.rs = .running) (zero : P 0 t)
    (succ : ∀ {k : Nat} {s u : State}, step s = .next u → u.rs = .running → core.run k u = .next t → P k u → P (k + 1) s)
    {k : Nat} {s : State} (h : core.run k s = .next t) : P k s := by
  induction k generalizing s with
  | zero =>
    injection h with h
    exact h ▸ zero
  | succ k ih =>
    obtain ⟨u, hu, hk⟩ := run_succ_next h
    exact succ hu (running_of_run_running hk ht) hk (ih hk)

/-! ### The instructions that complete (rule R80) -/

theorem completed_of_completes {k : Nat} {s t : State} {i : Instr} (hi : fetch s = .ok i) (h : step s = .next t)
    (ht : t.rs ≠ .errored) : completed (k + 1) s = i :: completed k t := by
  simp only [completed, hi, h, if_neg ht]

theorem completed_of_errored {k : Nat} {s t : State} (h : step s = .next t) (ht : t.rs = .errored) :
    completed (k + 1) s = [] := by
  cases hf : fetch s with
  | ok i => simp only [completed, hf, h, if_pos ht]
  | error e => simp only [completed, hf]

/-- Settles O48: each step between RUNNING states completes the instruction it fetched and moves `pc` by its length. -/
theorem pcIsTheSumOfTheLengths : Obligations.PcIsTheSumOfTheLengths := by
  intro k s t h ht
  refine run_running_induction (P := fun k s => (completed k s).length = k ∧
    t.pc = s.pc + ((completed k s).map Instr.length).sum) ht ⟨rfl, rfl⟩ (fun {k s u} hu hrun _ ih => ?_) h
  obtain ⟨hlen, hpc⟩ := ih
  obtain ⟨i, hi, -, hnext⟩ := step_running hu hrun
  rw [completed_of_completes hi hu (by simp [hrun])]
  refine ⟨by rw [List.length_cons, hlen], ?_⟩
  rw [List.map_cons, List.sum_cons, hpc, hnext, Nat.add_assoc]

/-- The number of PRN instructions in a list. -/
def prnCount (is : List Instr) : Nat := (is.filter fun i => decide (i.opcode = .prn)).length

/-- A completed instruction appends a value to OUT if it is PRN, and else none. -/
theorem completes_out_append {s t : State} {i : Instr} (h : Completes s i t) :
    ∃ vs, t.out = s.out ++ vs ∧ vs.length = prnCount [i] := by
  obtain ⟨hop, hout⟩ | ⟨r, v, rfl, -, -, hout⟩ := completes_out h
  · exact ⟨[], by rw [hout, List.append_nil], by simp [prnCount, hop]⟩
  · exact ⟨[v], hout, rfl⟩

theorem prnCount_cons (i : Instr) (is : List Instr) : prnCount (i :: is) = prnCount [i] + prnCount is := by
  rw [prnCount, ← List.singleton_append, List.filter_append, List.length_append]
  rfl

/-- A run appends to OUT one value for each PRN it completes. -/
theorem run_out_append {k : Nat} {s t : State} (h : core.run k s = .next t) :
    ∃ vs, t.out = s.out ++ vs ∧ vs.length = prnCount (completed k s) := by
  induction k generalizing s with
  | zero =>
    injection h with h
    exact ⟨[], by rw [h, List.append_nil], rfl⟩
  | succ k ih =>
    obtain ⟨u, hu, hk⟩ := run_succ_next h
    obtain ⟨hs, ⟨i, hi, hc⟩ | ⟨e, rfl⟩⟩ := step_next hu
    · obtain ⟨vs, hvs, hcount⟩ := completes_out_append hc
      obtain ⟨ws, hws, hrest⟩ := ih hk
      refine ⟨vs ++ ws, by rw [hws, hvs, List.append_assoc], ?_⟩
      rw [completed_of_completes hi hu (completes_rs_ne_errored hs hc), prnCount_cons, List.length_append, hcount, hrest]
    · obtain ⟨-, rfl⟩ := run_of_not_running (by simp) hk
      exact ⟨[], (List.append_nil _).symm, by rw [completed_of_errored hu rfl]; rfl⟩

/-- Settles O49: the values appended along the run are as many as the PRN instructions that completed. -/
theorem outputCountsCompletedPrn : Obligations.OutputCountsCompletedPrn := by
  intro k s t h
  obtain ⟨vs, hout, hcount⟩ := run_out_append h
  rw [hout, List.length_append, hcount]
  exact ⟨rfl, List.prefix_append s.out vs⟩

/-! ### Ascending addresses -/

/-- A step between RUNNING states moves `pc` up by 2 or 3: only HLT is shorter, and it ends the run. -/
theorem step_running_pc {s t : State} (h : step s = .next t) (ht : t.rs = .running) :
    s.pc + 2 ≤ t.pc ∧ t.pc ≤ s.pc + 3 := by
  obtain ⟨herr, -⟩ | ⟨-, -, hpc⟩ | ⟨-, -, hpc⟩ | ⟨-, -, hpc⟩ | ⟨hhlt, -, -⟩ := pcAdvancesByTheLength s t h
  · exact nomatch ht.symm.trans herr
  · omega
  · omega
  · omega
  · exact nomatch ht.symm.trans hhlt

/-- Settles O50: every step of such a run moves `pc` up by 2 or 3 and ends at most at 256. -/
theorem instructionsRunInAscendingOrder : Obligations.InstructionsRunInAscendingOrder := by
  intro k s t h ht
  refine run_running_induction (P := fun k s => s.pc + 2 * k ≤ t.pc ∧ t.pc ≤ s.pc + 3 * k ∧ (0 < k → t.pc ≤ 256))
    ht ⟨Nat.le_refl _, Nat.le_refl _, fun h => nomatch h⟩ (fun {k s u} hu hrun hk ih => ?_) h
  obtain ⟨hlow, hhigh, hend⟩ := ih
  obtain ⟨hmin, hmax⟩ := step_running_pc hu hrun
  refine ⟨by omega, by omega, fun _ => ?_⟩
  cases k with
  | zero =>
    injection hk with hk
    exact hk ▸ step_pc_le_of_running hu hrun
  | succ k => exact hend (Nat.succ_pos k)

/-! ### Every run ends (rule R81) -/

theorem not_running_iff (s : State) : s.rs ≠ .running ↔ s.rs = .halted ∨ s.rs = .errored := by
  cases s.rs <;> simp

/-- After `k` steps the machine is still RUNNING, or some of them have led to a terminal state. -/
theorem run_running_or_terminal {s : State} (hs : s.rs = .running) (k : Nat) :
    (∃ t, core.run k s = .next t ∧ t.rs = .running) ∨
      ∃ j t, 1 ≤ j ∧ j ≤ k ∧ core.run j s = .next t ∧ t.rs ≠ .running := by
  induction k with
  | zero => exact .inl ⟨s, rfl, hs⟩
  | succ k ih =>
    obtain ⟨t, hk, ht⟩ | ⟨j, t, hj, hjk, hrun, ht⟩ := ih
    · obtain ⟨u, hu⟩ := step_of_running ht
      have hrun : core.run (k + 1) s = .next u := (run_add k 1 hk).trans (run_succ_of_next hu 0)
      by_cases hu' : u.rs = .running
      · exact .inl ⟨u, hrun, hu'⟩
      · exact .inr ⟨k + 1, u, Nat.succ_pos k, Nat.le_refl _, hrun, hu'⟩
    · exact .inr ⟨j, t, hj, Nat.le_succ_of_le hjk, hrun, ht⟩

/-- Settles O51: 129 steps between RUNNING states would move `pc` up by 258, beyond the 256 where it stays. -/
theorem everyRunEnds : Obligations.EveryRunEnds := by
  intro s hs
  obtain ⟨t, hk, ht⟩ | ⟨j, t, hj, hj129, hrun, ht⟩ := run_running_or_terminal hs 129
  · obtain ⟨hlow, -, hend⟩ := instructionsRunInAscendingOrder 129 s t hk ht
    have hle : t.pc ≤ 256 := hend (by decide)
    omega
  · exact ⟨j, t, hj, hj129, hrun, (not_running_iff t).mp ht⟩

/-! ### The run's result and its outcome (rule R5) -/

theorem runFor_of_not_running {s : State} (hs : s.rs ≠ .running) (n : Nat) : runFor n s = s := by
  cases n with
  | zero => rfl
  | succ n =>
    obtain h | h := (not_running_iff s).mp hs
    · simp only [runFor, step_of_halted h]
    · simp only [runFor, step_of_errored h]

/-- With fuel for it, `runFor` gives the terminal state that a run leads to. -/
theorem runFor_of_run {k : Nat} {s t : State} (h : core.run k s = .next t) (ht : t.rs ≠ .running) (n : Nat) :
    runFor (k + n) s = t := by
  induction k generalizing s with
  | zero =>
    injection h with h
    exact h ▸ runFor_of_not_running (h ▸ ht) _
  | succ k ih =>
    obtain ⟨u, hu, hk⟩ := run_succ_next h
    rw [Nat.succ_add]
    simp only [runFor, hu]
    exact ih hk

theorem outcome_eq_halted_iff (s : State) : s.outcome = some .halted ↔ s.rs = .halted := by
  unfold State.outcome
  cases s.rs with
  | halted => exact iff_of_true rfl rfl
  | running => simp
  | errored => cases s.err <;> simp

theorem outcome_eq_errored_iff (s : State) (e : Error) :
    s.outcome = some (.errored e) ↔ s.rs = .errored ∧ s.err = some e := by
  unfold State.outcome
  cases s.rs with
  | halted => simp
  | running => simp
  | errored => cases s.err <;> simp

/-- Settles O52: the terminal state that a run reaches within 129 steps is what `run` gives, with any larger fuel too, and
there ERR and RS agree. -/
theorem runReportsAnOutcome : Obligations.RunReportsAnOutcome := by
  intro s hs herr
  obtain ⟨k, t, -, hk129, hk, hend⟩ := everyRunEnds s hs
  have ht : t.rs ≠ .running := (not_running_iff t).mpr hend
  have hfuel (n : Nat) : runFor (129 + n) s = t := by
    rw [← Nat.add_sub_cancel' hk129, Nat.add_assoc]
    exact runFor_of_run hk ht _
  have hrun : run s = t := hfuel 0
  have hstatus : t.StatusConsistent := run_keeps step_keeps_statusConsistent hk (statusConsistent_of_running hs herr)
  rw [hrun]
  refine ⟨⟨k, hk129, hk⟩, ht, outcome_eq_halted_iff t, outcome_eq_errored_iff t, ?_, hfuel⟩
  obtain hhalted | herrored := hend
  · exact .inl ((outcome_eq_halted_iff t).mpr hhalted)
  · obtain ⟨e, he⟩ := Option.isSome_iff_exists.mp (hstatus.mpr herrored)
    exact .inr ⟨e, (outcome_eq_errored_iff t e).mpr ⟨herrored, he⟩⟩

end Sys2Proof.Machine
end
